-- ==== Sys2Proof/Word.lean ====
section
/-! DEFINITION. The word types of the machine (spec/00_scope.md R8, R10; spec/30_encoding.md R72). -/

namespace Sys2Proof

/-- A byte: a general register, a timer, or one cell of memory (R20, R27, R28, R50). -/
abbrev Byte := BitVec 8

/-- A 16-bit word: `I`, `PC`, a call-stack entry, or an instruction word (R23, R24, R26, R70). -/
abbrev Word := BitVec 16

/-- The field `nnn` of an instruction word (R72). -/
abbrev Addr12 := BitVec 12

/-- One of the four nibbles of an instruction word (R71); the field `n` (R72). -/
abbrev Nibble := BitVec 4

/-- The index of a general register, 0x0 to 0xF (R20); the fields `x` and `y` (R72). -/
abbrev Reg := Fin 16

end Sys2Proof
end

