-- ==== Sys2Proof/Config.lean ====
section
/-! DEFINITION. The parameters of the machine (spec/00_scope.md R9) and the two defaults the spec's decisions name
(spec/92_eei_decisions.md D1, D2). The parameters have no body: a proof about the model is a proof for every value. -/

namespace Sys2Proof.Config

/-- `FONT_BASE`, constrained by `FONT_BASE + 80 <= 0x200` (R9, D1), so 0 to 432. -/
opaque fontBase : Fin 433

/-- `FONT`, the 80 glyph bytes (R9, D2). -/
opaque font : Vector Byte 80

/-- `RNG`: the byte of the `k`-th draw (R9, R143, D22). Each Cxkk takes one fresh draw, under no law. -/
opaque randomByte : Nat → Byte

/-- The spec's default for `FONT_BASE` (D1). The machine does not use it. -/
def defaultFontBase : Nat := 0x050

/-- Glyphs 0 to 7 of the spec's default for `FONT` (D2). -/
def defaultGlyphsLow : Vector Byte 40 :=
  #v[0xF0, 0x90, 0x90, 0x90, 0xF0,  0x20, 0x60, 0x20, 0x20, 0x70,
     0xF0, 0x10, 0xF0, 0x80, 0xF0,  0xF0, 0x10, 0xF0, 0x10, 0xF0,
     0x90, 0x90, 0xF0, 0x10, 0x10,  0xF0, 0x80, 0xF0, 0x10, 0xF0,
     0xF0, 0x80, 0xF0, 0x90, 0xF0,  0xF0, 0x10, 0x20, 0x40, 0x40]

/-- Glyphs 8 to F of the spec's default for `FONT` (D2). -/
def defaultGlyphsHigh : Vector Byte 40 :=
  #v[0xF0, 0x90, 0xF0, 0x90, 0xF0,  0xF0, 0x90, 0xF0, 0x10, 0xF0,
     0xF0, 0x90, 0xF0, 0x90, 0x90,  0xE0, 0x90, 0xE0, 0x90, 0xE0,
     0xF0, 0x80, 0x80, 0x80, 0xF0,  0xE0, 0x90, 0x90, 0x90, 0xE0,
     0xF0, 0x80, 0xF0, 0x80, 0xF0,  0xF0, 0x80, 0xF0, 0x80, 0x80]

/-- The spec's default for `FONT` (D2). The machine does not use it. -/
def defaultFont : Vector Byte 80 := defaultGlyphsLow ++ defaultGlyphsHigh

end Sys2Proof.Config
end

