-- ==== Sys2Proof/Syntax.lean ====
section
/-! DEFINITION. The 34 instructions, one constructor per row of spec/opcode_table.json, in the table's order
(spec/30_encoding.md R75, R80). Each operand has exactly the width of its field (R72). -/

namespace Sys2Proof

/-- An instruction with its operands. -/
inductive Instr where
  /-- 00E0 CLS -/
  | cls
  /-- 00EE RET -/
  | ret
  /-- 1nnn JP addr -/
  | jp (nnn : Addr12)
  /-- 2nnn CALL addr -/
  | call (nnn : Addr12)
  /-- 3xkk SE Vx, byte -/
  | seVxKk (x : Reg) (kk : Byte)
  /-- 4xkk SNE Vx, byte -/
  | sneVxKk (x : Reg) (kk : Byte)
  /-- 5xy0 SE Vx, Vy -/
  | seVxVy (x y : Reg)
  /-- 6xkk LD Vx, byte -/
  | ldVxKk (x : Reg) (kk : Byte)
  /-- 7xkk ADD Vx, byte -/
  | addVxKk (x : Reg) (kk : Byte)
  /-- 8xy0 LD Vx, Vy -/
  | ldVxVy (x y : Reg)
  /-- 8xy1 OR Vx, Vy -/
  | orVxVy (x y : Reg)
  /-- 8xy2 AND Vx, Vy -/
  | andVxVy (x y : Reg)
  /-- 8xy3 XOR Vx, Vy -/
  | xorVxVy (x y : Reg)
  /-- 8xy4 ADD Vx, Vy -/
  | addVxVy (x y : Reg)
  /-- 8xy5 SUB Vx, Vy -/
  | subVxVy (x y : Reg)
  /-- 8xy6 SHR Vx; the word's y field is kept so that no bit of the encoding is lost -/
  | shrVx (x y : Reg)
  /-- 8xy7 SUBN Vx, Vy -/
  | subnVxVy (x y : Reg)
  /-- 8xyE SHL Vx; the word's y field is kept so that no bit of the encoding is lost -/
  | shlVx (x y : Reg)
  /-- 9xy0 SNE Vx, Vy -/
  | sneVxVy (x y : Reg)
  /-- Annn LD I, addr -/
  | ldINnn (nnn : Addr12)
  /-- Bnnn JP V0, addr -/
  | jpV0 (nnn : Addr12)
  /-- Cxkk RND Vx, byte -/
  | rnd (x : Reg) (kk : Byte)
  /-- Dxyn DRW Vx, Vy, nibble -/
  | drw (x y : Reg) (n : Nibble)
  /-- Ex9E SKP Vx -/
  | skp (x : Reg)
  /-- ExA1 SKNP Vx -/
  | sknp (x : Reg)
  /-- Fx07 LD Vx, DT -/
  | ldVxDt (x : Reg)
  /-- Fx0A LD Vx, K -/
  | ldVxK (x : Reg)
  /-- Fx15 LD DT, Vx -/
  | ldDtVx (x : Reg)
  /-- Fx18 LD ST, Vx -/
  | ldStVx (x : Reg)
  /-- Fx1E ADD I, Vx -/
  | addIVx (x : Reg)
  /-- Fx29 LD F, Vx -/
  | ldFVx (x : Reg)
  /-- Fx33 LD B, Vx -/
  | ldBVx (x : Reg)
  /-- Fx55 LD [I], Vx -/
  | ldMemVx (x : Reg)
  /-- Fx65 LD Vx, [I] -/
  | ldVxMem (x : Reg)
  deriving DecidableEq, Repr

/-- The row of spec/opcode_table.json an instruction belongs to, by its mnemonic. -/
def Instr.mnemonic : Instr → String
  | .cls => "CLS"
  | .ret => "RET"
  | .jp _ => "JP"
  | .call _ => "CALL"
  | .seVxKk _ _ => "SE_VX_KK"
  | .sneVxKk _ _ => "SNE_VX_KK"
  | .seVxVy _ _ => "SE_VX_VY"
  | .ldVxKk _ _ => "LD_VX_KK"
  | .addVxKk _ _ => "ADD_VX_KK"
  | .ldVxVy _ _ => "LD_VX_VY"
  | .orVxVy _ _ => "OR"
  | .andVxVy _ _ => "AND"
  | .xorVxVy _ _ => "XOR"
  | .addVxVy _ _ => "ADD_VX_VY"
  | .subVxVy _ _ => "SUB"
  | .shrVx _ _ => "SHR"
  | .subnVxVy _ _ => "SUBN"
  | .shlVx _ _ => "SHL"
  | .sneVxVy _ _ => "SNE_VX_VY"
  | .ldINnn _ => "LD_I_NNN"
  | .jpV0 _ => "JP_V0"
  | .rnd _ _ => "RND"
  | .drw _ _ _ => "DRW"
  | .skp _ => "SKP"
  | .sknp _ => "SKNP"
  | .ldVxDt _ => "LD_VX_DT"
  | .ldVxK _ => "LD_VX_K"
  | .ldDtVx _ => "LD_DT_VX"
  | .ldStVx _ => "LD_ST_VX"
  | .addIVx _ => "ADD_I_VX"
  | .ldFVx _ => "LD_F_VX"
  | .ldBVx _ => "LD_B_VX"
  | .ldMemVx _ => "LD_MEM_VX"
  | .ldVxMem _ => "LD_VX_MEM"

end Sys2Proof
end

