-- ==== Sys2Proof/WellFormed.lean ====
section
/-! DEFINITION. Which instruction words are well formed: the words that match a row of spec/opcode_table.json
(spec/30_encoding.md R75, R76, R80). The operands of an `Instr` need no check of their own: their types are exactly as
wide as the fields of R72, so every term of `Instr` is an encodable instruction (`Instr.wellFormed` in Decode.lean is the
same check on its word). -/

namespace Sys2Proof

/-- One row of spec/opcode_table.json: its mnemonic, and the fixed bits of its encoding as a mask and the value those
bits have. -/
structure OpcodeRow where
  mnemonic : String
  mask : Word
  pattern : Word
  deriving DecidableEq, Repr

/-- A word belongs to a row when its fixed bits have the row's value. -/
def OpcodeRow.matchesWord (row : OpcodeRow) (w : Word) : Bool := w &&& row.mask = row.pattern

/-- Families 0x0 to 0x7 (R75). -/
def opcodeRowsLow : List OpcodeRow :=
  [⟨"CLS", 0xFFFF, 0x00E0⟩, ⟨"RET", 0xFFFF, 0x00EE⟩, ⟨"JP", 0xF000, 0x1000⟩, ⟨"CALL", 0xF000, 0x2000⟩,
   ⟨"SE_VX_KK", 0xF000, 0x3000⟩, ⟨"SNE_VX_KK", 0xF000, 0x4000⟩, ⟨"SE_VX_VY", 0xF00F, 0x5000⟩,
   ⟨"LD_VX_KK", 0xF000, 0x6000⟩, ⟨"ADD_VX_KK", 0xF000, 0x7000⟩]

/-- Families 0x8 and 0x9 (R75). -/
def opcodeRowsAlu : List OpcodeRow :=
  [⟨"LD_VX_VY", 0xF00F, 0x8000⟩, ⟨"OR", 0xF00F, 0x8001⟩, ⟨"AND", 0xF00F, 0x8002⟩, ⟨"XOR", 0xF00F, 0x8003⟩,
   ⟨"ADD_VX_VY", 0xF00F, 0x8004⟩, ⟨"SUB", 0xF00F, 0x8005⟩, ⟨"SHR", 0xF00F, 0x8006⟩, ⟨"SUBN", 0xF00F, 0x8007⟩,
   ⟨"SHL", 0xF00F, 0x800E⟩, ⟨"SNE_VX_VY", 0xF00F, 0x9000⟩]

/-- Families 0xA to 0xE (R75). -/
def opcodeRowsMid : List OpcodeRow :=
  [⟨"LD_I_NNN", 0xF000, 0xA000⟩, ⟨"JP_V0", 0xF000, 0xB000⟩, ⟨"RND", 0xF000, 0xC000⟩, ⟨"DRW", 0xF000, 0xD000⟩,
   ⟨"SKP", 0xF0FF, 0xE09E⟩, ⟨"SKNP", 0xF0FF, 0xE0A1⟩]

/-- Family 0xF (R75). -/
def opcodeRowsHigh : List OpcodeRow :=
  [⟨"LD_VX_DT", 0xF0FF, 0xF007⟩, ⟨"LD_VX_K", 0xF0FF, 0xF00A⟩, ⟨"LD_DT_VX", 0xF0FF, 0xF015⟩,
   ⟨"LD_ST_VX", 0xF0FF, 0xF018⟩, ⟨"ADD_I_VX", 0xF0FF, 0xF01E⟩, ⟨"LD_F_VX", 0xF0FF, 0xF029⟩,
   ⟨"LD_B_VX", 0xF0FF, 0xF033⟩, ⟨"LD_MEM_VX", 0xF0FF, 0xF055⟩, ⟨"LD_VX_MEM", 0xF0FF, 0xF065⟩]

/-- The 34 rows of spec/opcode_table.json, in its order (R80). -/
def opcodeRows : List OpcodeRow := opcodeRowsLow ++ opcodeRowsAlu ++ opcodeRowsMid ++ opcodeRowsHigh

/-- The check on an instruction word: it matches a row of the table. Every other word is illegal (R76). -/
def wellFormedWord (w : Word) : Bool := opcodeRows.any (·.matchesWord w)

end Sys2Proof
end

