-- ==== Sys2Proof/Decode.lean ====
section
/-! DEFINITION. The decoder of spec/30_encoding.md R74, total on words and on byte lists, and the encoder of R73. -/

namespace Sys2Proof

/-- Why bytes are not an instruction. -/
inductive DecodeError where
  /-- Fewer than the two bytes an instruction takes (R70). -/
  | truncated
  /-- The word matches no row of the opcode map (R74, R76). -/
  | illegalWord (w : Word)
  deriving DecidableEq, Repr

/-! ### Fields (R71, R72) -/

/-- The family nibble `N3 = op[15:12]` (R71). -/
def fieldFamily (w : Word) : Nibble := w.extractLsb' 12 4

/-- The register index `x = op[11:8]` (R72). -/
def fieldX (w : Word) : Reg := (w.extractLsb' 8 4).toFin

/-- The register index `y = op[7:4]` (R72). -/
def fieldY (w : Word) : Reg := (w.extractLsb' 4 4).toFin

/-- The nibble `n = op[3:0]` (R72). -/
def fieldN (w : Word) : Nibble := w.extractLsb' 0 4

/-- The immediate byte `kk = op[7:0]` (R72). -/
def fieldKk (w : Word) : Byte := w.extractLsb' 0 8

/-- The address `nnn = op[11:0]` (R72). -/
def fieldNnn (w : Word) : Addr12 := w.extractLsb' 0 12

/-! ### The decoder (R74) -/

/-- Family 0x8, by its sub-opcode `n` (R74). -/
def decodeAlu (w : Word) : Except DecodeError Instr :=
  match fieldN w with
  | 0x0#4 => .ok (.ldVxVy (fieldX w) (fieldY w))
  | 0x1#4 => .ok (.orVxVy (fieldX w) (fieldY w))
  | 0x2#4 => .ok (.andVxVy (fieldX w) (fieldY w))
  | 0x3#4 => .ok (.xorVxVy (fieldX w) (fieldY w))
  | 0x4#4 => .ok (.addVxVy (fieldX w) (fieldY w))
  | 0x5#4 => .ok (.subVxVy (fieldX w) (fieldY w))
  | 0x6#4 => .ok (.shrVx (fieldX w) (fieldY w))
  | 0x7#4 => .ok (.subnVxVy (fieldX w) (fieldY w))
  | 0xE#4 => .ok (.shlVx (fieldX w) (fieldY w))
  | _ => .error (.illegalWord w)

/-- Family 0xE, by its sub-opcode `kk` (R74). -/
def decodeKey (w : Word) : Except DecodeError Instr :=
  match fieldKk w with
  | 0x9E#8 => .ok (.skp (fieldX w))
  | 0xA1#8 => .ok (.sknp (fieldX w))
  | _ => .error (.illegalWord w)

/-- Family 0xF, by its sub-opcode `kk` (R74). -/
def decodeMisc (w : Word) : Except DecodeError Instr :=
  match fieldKk w with
  | 0x07#8 => .ok (.ldVxDt (fieldX w))
  | 0x0A#8 => .ok (.ldVxK (fieldX w))
  | 0x15#8 => .ok (.ldDtVx (fieldX w))
  | 0x18#8 => .ok (.ldStVx (fieldX w))
  | 0x1E#8 => .ok (.addIVx (fieldX w))
  | 0x29#8 => .ok (.ldFVx (fieldX w))
  | 0x33#8 => .ok (.ldBVx (fieldX w))
  | 0x55#8 => .ok (.ldMemVx (fieldX w))
  | 0x65#8 => .ok (.ldVxMem (fieldX w))
  | _ => .error (.illegalWord w)

/-- The total decoder from words (R74). The last arm is family 0xF, the one nibble the others leave. -/
def decode (w : Word) : Except DecodeError Instr :=
  match fieldFamily w with
  | 0x0#4 =>
    if w = 0x00E0 then .ok .cls
    else if w = 0x00EE then .ok .ret
    else .error (.illegalWord w)
  | 0x1#4 => .ok (.jp (fieldNnn w))
  | 0x2#4 => .ok (.call (fieldNnn w))
  | 0x3#4 => .ok (.seVxKk (fieldX w) (fieldKk w))
  | 0x4#4 => .ok (.sneVxKk (fieldX w) (fieldKk w))
  | 0x5#4 => if fieldN w = 0 then .ok (.seVxVy (fieldX w) (fieldY w)) else .error (.illegalWord w)
  | 0x6#4 => .ok (.ldVxKk (fieldX w) (fieldKk w))
  | 0x7#4 => .ok (.addVxKk (fieldX w) (fieldKk w))
  | 0x8#4 => decodeAlu w
  | 0x9#4 => if fieldN w = 0 then .ok (.sneVxVy (fieldX w) (fieldY w)) else .error (.illegalWord w)
  | 0xA#4 => .ok (.ldINnn (fieldNnn w))
  | 0xB#4 => .ok (.jpV0 (fieldNnn w))
  | 0xC#4 => .ok (.rnd (fieldX w) (fieldKk w))
  | 0xD#4 => .ok (.drw (fieldX w) (fieldY w) (fieldN w))
  | 0xE#4 => decodeKey w
  | _ => decodeMisc w

/-- The word two consecutive bytes hold, the one at the lower address first: big-endian (R55, R70). -/
def wordOfBytes (first second : Byte) : Word := first ++ second

/-- The two bytes of a word in the order they stand in memory (R55, R70). -/
def bytesOfWord (w : Word) : List Byte := [w.extractLsb' 8 8, w.extractLsb' 0 8]

/-- The decoder on bytes: it takes exactly two and gives back the rest (R70). -/
def decodeBytes : List Byte → Except DecodeError (Instr × List Byte)
  | first :: second :: rest => (decode (wordOfBytes first second)).map (·, rest)
  | _ => .error .truncated

/-! ### The encoder (R73) -/

/-- A register index as the nibble of its field (R72). -/
def regBits (r : Reg) : Nibble := BitVec.ofFin r

/-- Format A: family nibble and address (R73). -/
def formatA (o : Nibble) (nnn : Addr12) : Word := o ++ nnn

/-- Format XK: family nibble, register, immediate byte (R73). -/
def formatXK (o : Nibble) (x : Reg) (kk : Byte) : Word := o ++ regBits x ++ kk

/-- Formats XY and XYN: family nibble, two registers, and the sub-opcode or the count (R73). -/
def formatXYN (o : Nibble) (x y : Reg) (n : Nibble) : Word := o ++ regBits x ++ regBits y ++ n

/-- The word of an instruction. Format Z is the word itself; format XF is XK with a fixed byte (R73). -/
def encode : Instr → Word
  | .cls => 0x00E0
  | .ret => 0x00EE
  | .jp nnn => formatA 0x1 nnn
  | .call nnn => formatA 0x2 nnn
  | .seVxKk x kk => formatXK 0x3 x kk
  | .sneVxKk x kk => formatXK 0x4 x kk
  | .seVxVy x y => formatXYN 0x5 x y 0x0
  | .ldVxKk x kk => formatXK 0x6 x kk
  | .addVxKk x kk => formatXK 0x7 x kk
  | .ldVxVy x y => formatXYN 0x8 x y 0x0
  | .orVxVy x y => formatXYN 0x8 x y 0x1
  | .andVxVy x y => formatXYN 0x8 x y 0x2
  | .xorVxVy x y => formatXYN 0x8 x y 0x3
  | .addVxVy x y => formatXYN 0x8 x y 0x4
  | .subVxVy x y => formatXYN 0x8 x y 0x5
  | .shrVx x y => formatXYN 0x8 x y 0x6
  | .subnVxVy x y => formatXYN 0x8 x y 0x7
  | .shlVx x y => formatXYN 0x8 x y 0xE
  | .sneVxVy x y => formatXYN 0x9 x y 0x0
  | .ldINnn nnn => formatA 0xA nnn
  | .jpV0 nnn => formatA 0xB nnn
  | .rnd x kk => formatXK 0xC x kk
  | .drw x y n => formatXYN 0xD x y n
  | .skp x => formatXK 0xE x 0x9E
  | .sknp x => formatXK 0xE x 0xA1
  | .ldVxDt x => formatXK 0xF x 0x07
  | .ldVxK x => formatXK 0xF x 0x0A
  | .ldDtVx x => formatXK 0xF x 0x15
  | .ldStVx x => formatXK 0xF x 0x18
  | .addIVx x => formatXK 0xF x 0x1E
  | .ldFVx x => formatXK 0xF x 0x29
  | .ldBVx x => formatXK 0xF x 0x33
  | .ldMemVx x => formatXK 0xF x 0x55
  | .ldVxMem x => formatXK 0xF x 0x65

/-- An instruction is well formed when its word is: the check of WellFormed.lean on `encode i`. -/
def Instr.wellFormed (i : Instr) : Bool := wellFormedWord (encode i)

/-- The instruction word whose bits, numbered as spec/opcode_table.json numbers them, are `w`: an instruction is one
16-bit word, and every bit above `nbits` is 0. -/
def tableWord (nbits w : Nat) : Word := BitVec.ofNat 16 (w % 2 ^ nbits)

/-- What the decoder reads from a word of the opcode table, laid out as two bytes in memory. -/
def decodeTableWord (nbits w : Nat) : Option Instr :=
  match decodeBytes (bytesOfWord (tableWord nbits w)) with
  | .ok (i, _) => some i
  | .error _ => none

end Sys2Proof
end

