-- ==== Sys2Proof/Machine/State.lean ====
section
/-! DEFINITION. The state of the machine (spec/10_state.md), its value at creation (R36, R350), and the reasons an
outcome of the model can carry. -/

namespace Sys2Proof.Machine

/-- Memory in one canonical form: the bytes that differ from what an unlisted address reads as, at strictly rising
addresses (`Memory.wf` in Ops.lean). -/
abbrev Memory := List Host.Cell

/-- The display: 32 rows of 64 binary pixels (R30). -/
abbrev Framebuffer := Vector (Vector Bool 64) 32

/-- The key-wait state (R32). -/
inductive Wait where
  /-- The core executes instructions. -/
  | running
  /-- The core waits for a key press, which will be written to `V[r]`. -/
  | waitingForKey (r : Reg)
  deriving DecidableEq, Repr

/-- The eight fatal conditions of R300. -/
inductive FaultCause where
  /-- The fetched word matches no pattern (R102). -/
  | decodeError
  /-- CALL with 16 frames on the stack (R112). -/
  | stackOverflow
  /-- RET with no frame on the stack (R110). -/
  | stackUnderflow
  /-- A data access whose span passes 0xFFF (R54). -/
  | memoryOutOfRange
  /-- A fetch from an even PC at or above 0x1000 (R101). -/
  | fetchOutOfRange
  /-- A fetch from an odd PC (R101). -/
  | misalignedFetch
  /-- A store below 0x200 (R53). -/
  | reservedWrite
  /-- A key test of a register above 0x0F (R220, R221). -/
  | keyOutOfRange
  deriving DecidableEq, Repr

/-- What a fault leaves in the halt latch (R301). -/
structure FaultRecord where
  cause : FaultCause
  /-- The PC of the fetch, `pc0`. -/
  pc : Word
  /-- The fetched word; none where no word was fetched. -/
  opcode : Option Word
  deriving DecidableEq, Repr

/-- Reasons a run that must not fault stops. The machine's own fault entry (R302) is a NEXT state with the halt latch
set, so neither `exec` nor `step` ever answers one of these. -/
inductive Fault where
  /-- The halt latch is set: raised by `noFaultStep` (Safety.lean) alone, which R303 asks of a claim that requires no
  fault. SAFE: it refutes such a claim and proves nothing. -/
  | halted (record : FaultRecord)
  deriving DecidableEq, Repr

/-- Reasons the model gives an instruction no meaning. -/
inductive Refusal where
  /-- The instruction of this mnemonic has no meaning yet: raised by an arm of `exec`; no arm raises it now. SAFE: no
  claim about a next state follows from it. -/
  | notModelled (mnemonic : String)
  deriving DecidableEq, Repr

/-- The state record of spec/10_state.md, and the model's own counter of random draws. -/
structure State where
  /-- The general registers V0 to VF (R20). -/
  V : Vector Byte 16
  /-- The index register (R23). -/
  I : Word
  /-- The address of the next instruction to fetch (R24). -/
  PC : Word
  /-- How many frames are on the call stack, 0 to 16 (R25). -/
  SP : Fin 17
  /-- The call stack's entries (R26). -/
  stack : Vector Word 16
  /-- The delay timer (R27). -/
  DT : Byte
  /-- The sound timer (R28). -/
  ST : Byte
  /-- Memory, addresses 0x000 to 0xFFF (R34). -/
  mem : Memory
  /-- Bit `i` is set while key `i` is held (R29). -/
  keypad : BitVec 16
  /-- `fb[r][c]`: row `r`, column `c` (R30). -/
  fb : Framebuffer
  /-- Redraw requested (R31). -/
  redraw : Bool
  /-- The key-wait state (R32). -/
  wait : Wait
  /-- The halt latch (R33). -/
  halt : Option FaultRecord
  /-- The MODEL'S OWN field, not the spec's: how many bytes Cxkk has drawn from RNG, so that each draw is a fresh free
  value (R9, R143, D22; log entry 2). -/
  draws : Nat
  deriving DecidableEq, Repr

/-- The state at creation (R36, R350, R351). No address is listed in memory, so it reads 0x00 but for the font
(`Memory.unlisted` in Ops.lean). The start of the model's own `draws` is a DESIGN CHOICE (log entry 2). -/
def State.reset : State where
  V := Vector.replicate 16 0x00
  I := 0x0000
  PC := 0x200
  SP := 0
  stack := Vector.replicate 16 0x0000
  DT := 0x00
  ST := 0x00
  mem := []
  keypad := 0x0000
  fb := Vector.replicate 32 (Vector.replicate 64 false)
  redraw := false
  wait := .running
  halt := none
  draws := 0

end Sys2Proof.Machine
end

