-- ==== Sys2Proof/Machine/Ops.lean ====
section
/-! DEFINITION. The named operations over memory, registers, the call stack, the display, the keypad and PC, and taking a
fault. There is no operation that returns from a fault: the core has no handler and no trap return (R305). -/

namespace Sys2Proof.Machine

/-! ### Memory (spec/20_memory.md) -/

/-- The first address of program memory; everything below is reserved (R51). -/
def romBase : Nat := 0x200

/-- The number of bytes of memory (R50). -/
def memSize : Nat := 0x1000

/-- The most bytes a ROM may have (R8, R321). -/
def romMax : Nat := 0xE00

/-- What memory holds at creation for a font at `base`: the font in the reserved region, and 0x00 elsewhere (R34, R51). -/
def createdByte (base : Nat) (font : Vector Byte 80) (a : Nat) : Byte :=
  if romBase ≤ a then 0x00
  else if h : base ≤ a ∧ a < base + 80 then font[a - base] else 0x00

/-- What an address that memory does not list reads as: its value at creation (R34). -/
def Memory.unlisted (a : Nat) : Byte := createdByte Config.fontBase.val Config.font a

/-- `MemRead(a, 1)` (R52): a read has no side effect. -/
def Memory.read : Memory → Nat → Byte
  | [], a => Memory.unlisted a
  | (b, v) :: rest, a => if a = b then v else Memory.read rest a

/-- Lists `v` at address `a`, in its place. -/
def Memory.insert : Memory → Nat → Byte → Memory
  | [], a, v => [(a, v)]
  | (b, w) :: rest, a, v =>
    if a < b then (a, v) :: (b, w) :: rest
    else if a = b then (a, v) :: rest
    else (b, w) :: Memory.insert rest a v

/-- Takes address `a` off the list. -/
def Memory.erase : Memory → Nat → Memory
  | [], _ => []
  | (b, w) :: rest, a => if a = b then Memory.erase rest a else (b, w) :: Memory.erase rest a

/-- `MemWrite(a, 1, v)` (R53), keeping the canonical form. The instruction rules check the address before (R11). -/
def Memory.write (m : Memory) (a : Nat) (v : Byte) : Memory :=
  if v = Memory.unlisted a then m.erase a else m.insert a v

/-- The `n` bytes from `a` up. -/
def Memory.readBytes (m : Memory) (a : Nat) : Nat → List Byte
  | 0 => []
  | n + 1 => m.read a :: m.readBytes (a + 1) n

/-- Writes a list of bytes from `a` up, one byte after the other (R56). -/
def Memory.writeBytes (m : Memory) (a : Nat) : List Byte → Memory
  | [] => m
  | v :: rest => (m.write a v).writeBytes (a + 1) rest

/-- The canonical form: strictly rising addresses, each in memory's range, and no entry equal to what its address reads
as unlisted. -/
abbrev Memory.wf (m : Memory) : Prop :=
  m.Pairwise (fun c d => c.1 < d.1) ∧ ∀ c ∈ m, c.1 < memSize ∧ c.2 ≠ Memory.unlisted c.1

/-! ### General registers (R20, R21) -/

/-- Reads `V[r]` (R11). No register is hardwired (R20). -/
def State.reg (s : State) (r : Reg) : Byte := s.V[r]

/-- `V[r] <- v` (R11). -/
def State.setReg (s : State) (r : Reg) (v : Byte) : State := { s with V := s.V.set r v }

/-- `V[F] <- flag` (R21, R40). -/
def State.setFlag (s : State) (flag : Byte) : State := s.setReg 0xF flag

/-- The registers V0 to Vx, in that order (R174). -/
def State.regsUpTo (s : State) (x : Reg) : List Byte := s.V.toList.take (x.val + 1)

/-- V0 to Vx each take the byte at its place from `a` up; the registers above keep their values (R175). -/
def State.loadRegs (s : State) (x : Reg) (a : Nat) : State :=
  { s with V := Vector.ofFn fun k => if k ≤ x then s.mem.read (a + k) else s.reg k }

/-! ### PC (R24, R103) -/

/-- `next`: the address after the instruction (R11). -/
def State.next (s : State) : Word := s.PC + 2

/-- `PC <- next`. -/
def State.advance (s : State) : State := { s with PC := s.next }

/-- `PC <- target`. -/
def State.jump (s : State) (target : Word) : State := { s with PC := target }

/-- A skip: the normal advance and, when taken, another 2 bytes (R103). -/
def State.skipIf (s : State) (taken : Bool) : State := { s with PC := if taken then s.next + 2 else s.next }

/-! ### The call stack (R25, R26) -/

/-- Pushes a return address; none when the stack holds 16 frames. -/
def State.push (s : State) (v : Word) : Option State :=
  if h : s.SP.val < 16 then
    some { s with stack := s.stack.set s.SP.val v, SP := ⟨s.SP.val + 1, by omega⟩ }
  else none

/-- Pops the last frame; none when there is none. The entry keeps its value (R26). -/
def State.pop (s : State) : Option (Word × State) :=
  if h : s.SP.val = 0 then none
  else some (s.stack[s.SP.val - 1]'(by omega), { s with SP := ⟨s.SP.val - 1, by omega⟩ })

/-! ### The display (R30, R200, R201) -/

/-- `fb[r][c]`. -/
def Framebuffer.pixel (fb : Framebuffer) (r : Fin 32) (c : Fin 64) : Bool := fb[r][c]

/-- `fb[r][c] <- v`. -/
def Framebuffer.setPixel (fb : Framebuffer) (r : Fin 32) (c : Fin 64) (v : Bool) : Framebuffer :=
  fb.set r (fb[r].set c v)

/-- The clear display. -/
def Framebuffer.blank : Framebuffer := Vector.replicate 32 (Vector.replicate 64 false)

/-- A row as the source stores it: bit `63 - c` is column `c` (R30, D4). Only the host can see it. -/
def Framebuffer.rowWord (fb : Framebuffer) (r : Fin 32) : BitVec 64 :=
  BitVec.ofFnLE fun i : Fin 64 => fb.pixel r (63 - i)

/-- The bit of a sprite byte at column offset `c`: bit 7 is the leftmost (R203). -/
def spriteBit (b : Byte) (c : Nat) : Bool := b.getLsbD (7 - c)

/-- A drawing under way: the display, and whether a set sprite bit has met a set pixel. -/
abbrev Drawing := Framebuffer × Bool

/-- One bit of a sprite, at row `y` and column offset `c` from column `x`; both axes wrap (R201). -/
def drawBit (x y : Nat) (b : Byte) (d : Drawing) (c : Nat) : Drawing :=
  let py : Fin 32 := Fin.ofNat 32 y
  let px : Fin 64 := Fin.ofNat 64 (x + c)
  let s := spriteBit b c
  let old := d.1.pixel py px
  (d.1.setPixel py px (old ^^ s), d.2 || (s && old))

/-- One sprite row of 8 bits (R201). -/
def drawRow (x y : Nat) (b : Byte) (d : Drawing) : Drawing := (List.range 8).foldl (drawBit x y b) d

/-- The rows of a sprite, from row `y` down (R201). -/
def drawRows (x y : Nat) : List Byte → Drawing → Drawing
  | [], d => d
  | b :: rest, d => drawRows x (y + 1) rest (drawRow x y b d)

/-! ### The keypad and the random source (R29, R9) -/

/-- Whether key `k` is held (R29). -/
def State.keyHeld (s : State) (k : Fin 16) : Bool := s.keypad.getLsbD k

/-- `draw_byte()`: one fresh byte from RNG, a free value (R9, R11, R143). -/
def State.drawByte (s : State) : Byte × State := (Config.randomByte s.draws, { s with draws := s.draws + 1 })

/-! ### Faults (spec/60_exceptions.md) -/

/-- The number of a cause (R300, D17). -/
def FaultCause.code : FaultCause → Nat
  | .decodeError => 1
  | .stackOverflow => 2
  | .stackUnderflow => 3
  | .memoryOutOfRange => 4
  | .fetchOutOfRange => 5
  | .misalignedFetch => 6
  | .reservedWrite => 7
  | .keyOutOfRange => 8

/-- Taking a fault: the halt latch records it and nothing else changes, so PC stays `pc0` (R301, R302). -/
def State.takeFault (s : State) (cause : FaultCause) (opcode : Option Word) : State :=
  { s with halt := some ⟨cause, s.PC, opcode⟩ }

/-- `raise Fault(cause)` by instruction `i` (R11): the record's opcode is the instruction's word (R301). -/
def State.raise (s : State) (cause : FaultCause) (i : Instr) : State := s.takeFault cause (some (encode i))

end Sys2Proof.Machine
end

