-- ==== Sys2Proof/Machine/Flags.lean ====
section
/-! DEFINITION. The values of VF as a flag (spec/10_state.md R40, spec/41_alu.md). -/

namespace Sys2Proof.Machine

/-- A flag as the byte VF holds: 1 or 0 (R40). -/
def flagByte (b : Bool) : Byte := if b then 1 else 0

/-- The carry of an addition: 1 iff the sum is above 255 (R138). -/
def carryFlag (a b : Byte) : Byte := flagByte (255 < a.toNat + b.toNat)

/-- The flag of subtracting `b` from `a`: 1 iff `a` is strictly greater (R139, R141). -/
def greaterFlag (a b : Byte) : Byte := flagByte (b.toNat < a.toNat)

/-- The bit a right shift drops: old bit 0 (R140). -/
def lowBitFlag (a : Byte) : Byte := flagByte (a.getLsbD 0)

/-- The bit a left shift drops: old bit 7 (R142). -/
def highBitFlag (a : Byte) : Byte := flagByte (a.getLsbD 7)

/-- The collision flag of a drawing (R201). -/
def collisionFlag (d : Drawing) : Byte := flagByte d.2

end Sys2Proof.Machine
end

