-- ==== Sys2Proof/Machine/Operands.lean ====
section
/-! DEFINITION. How instructions form operands and addresses (spec/30_encoding.md R72, spec/42_index_memory.md R172, R176). -/

namespace Sys2Proof.Machine

/-- The address field as a 16-bit value: `zext_16(nnn)`, not scaled (R72). -/
def addrOperand (nnn : Addr12) : Word := nnn.zeroExtend 16

/-- A register's value as a 16-bit offset: `zext_16(V[r])` (R113, R171). -/
def State.offsetOperand (s : State) (r : Reg) : Word := (s.reg r).zeroExtend 16

/-- The effective address of byte `k` of a data access: `I + k` as a natural number, with no wrap (R176). -/
def State.dataAddr (s : State) (k : Nat) : Nat := s.I.toNat + k

/-- Whether an access whose last byte is byte `k` passes the top of memory (R54). -/
def State.spanPassesTop (s : State) (k : Nat) : Bool := 0xFFF < s.dataAddr k

/-- Whether an access reaches the reserved region: its first byte lies below 0x200 (R53). -/
def State.spanInReserved (s : State) : Bool := s.dataAddr 0 < romBase

/-- The address of the glyph of a byte's low nibble, for a font at `base` (R172). -/
def glyphAddr (base : Nat) (v : Byte) : Word := BitVec.ofNat 16 (base + 5 * (v &&& 0x0F).toNat)

/-- The decimal digits of a byte, hundreds first (R56, R173). -/
def bcdDigits (v : Byte) : List Byte :=
  [BitVec.ofNat 8 (v.toNat / 100), BitVec.ofNat 8 (v.toNat / 10 % 10), BitVec.ofNat 8 (v.toNat % 10)]

/-- A byte as a key number; none above 0xF (R220, R221). -/
def keyOperand (v : Byte) : Option (Fin 16) := if h : v.toNat < 16 then some ⟨v.toNat, h⟩ else none

/-- The bytes of an `n`-row sprite: row 0 is at `I` (R56, R201). -/
def State.spriteBytes (s : State) (n : Nibble) : List Byte := s.mem.readBytes (s.dataAddr 0) n.toNat

end Sys2Proof.Machine
end

