-- ==== Sys2Proof/Machine/Alu.lean ====
section
/-! DEFINITION. Register loads, the ALU family and RND (spec/41_alu.md R130 to R144). -/

namespace Sys2Proof.Machine

/-- An operation with a result alone: `V[x] <- result; PC <- next`. -/
def State.finish (s : State) (x : Reg) (result : Byte) : Host.Outcome State Fault Refusal :=
  .next (s.setReg x result).advance

/-- An operation with a result and a flag: the flag is written last, so VF ends holding it when x = F (R130). -/
def State.finishFlag (s : State) (x : Reg) (result flag : Byte) : Host.Outcome State Fault Refusal :=
  .next ((s.setReg x result).setFlag flag).advance

/-- 6xkk LD (R131). -/
def execLdVxKk (x : Reg) (kk : Byte) (s : State) : Host.Outcome State Fault Refusal := s.finish x kk

/-- 7xkk ADD (R132): no flag. -/
def execAddVxKk (x : Reg) (kk : Byte) (s : State) : Host.Outcome State Fault Refusal := s.finish x (s.reg x + kk)

/-- 8xy0 LD (R133). -/
def execLdVxVy (x y : Reg) (s : State) : Host.Outcome State Fault Refusal := s.finish x (s.reg y)

/-- 8xy1 OR (R134): VF unchanged. -/
def execOrVxVy (x y : Reg) (s : State) : Host.Outcome State Fault Refusal := s.finish x (s.reg x ||| s.reg y)

/-- 8xy2 AND (R135): VF unchanged. -/
def execAndVxVy (x y : Reg) (s : State) : Host.Outcome State Fault Refusal := s.finish x (s.reg x &&& s.reg y)

/-- 8xy3 XOR (R136): VF unchanged. -/
def execXorVxVy (x y : Reg) (s : State) : Host.Outcome State Fault Refusal := s.finish x (s.reg x ^^^ s.reg y)

/-- 8xy4 ADD (R138). -/
def execAddVxVy (x y : Reg) (s : State) : Host.Outcome State Fault Refusal :=
  s.finishFlag x (s.reg x + s.reg y) (carryFlag (s.reg x) (s.reg y))

/-- 8xy5 SUB (R139). -/
def execSubVxVy (x y : Reg) (s : State) : Host.Outcome State Fault Refusal :=
  s.finishFlag x (s.reg x - s.reg y) (greaterFlag (s.reg x) (s.reg y))

/-- 8xy6 SHR (R140): y is ignored. -/
def execShrVx (x _y : Reg) (s : State) : Host.Outcome State Fault Refusal :=
  s.finishFlag x (s.reg x >>> 1) (lowBitFlag (s.reg x))

/-- 8xy7 SUBN (R141). -/
def execSubnVxVy (x y : Reg) (s : State) : Host.Outcome State Fault Refusal :=
  s.finishFlag x (s.reg y - s.reg x) (greaterFlag (s.reg y) (s.reg x))

/-- 8xyE SHL (R142): y is ignored. -/
def execShlVx (x _y : Reg) (s : State) : Host.Outcome State Fault Refusal :=
  s.finishFlag x (s.reg x <<< 1) (highBitFlag (s.reg x))

/-- Cxkk RND (R143): a fresh free byte, masked. -/
def execRnd (x : Reg) (kk : Byte) (s : State) : Host.Outcome State Fault Refusal :=
  let (r, t) := s.drawByte
  t.finish x (r &&& kk)

end Sys2Proof.Machine
end

