-- ==== Sys2Proof/Machine/Control.lean ====
section
/-! DEFINITION. Control transfer: return, jumps, call and skips (spec/40_cycle_and_control.md R110 to R117). -/

namespace Sys2Proof.Machine

/-- 00EE RET (R110): the popped value is used as it is. -/
def execRet (s : State) : Host.Outcome State Fault Refusal :=
  match s.pop with
  | none => .next (s.raise .stackUnderflow .ret)
  | some (target, t) => .next (t.jump target)

/-- 1nnn JP (R111): the target is not checked (R104). -/
def execJp (nnn : Addr12) (s : State) : Host.Outcome State Fault Refusal := .next (s.jump (addrOperand nnn))

/-- 2nnn CALL (R112): it pushes `next`, not `pc0`. -/
def execCall (nnn : Addr12) (s : State) : Host.Outcome State Fault Refusal :=
  match s.push s.next with
  | none => .next (s.raise .stackOverflow (.call nnn))
  | some t => .next (t.jump (addrOperand nnn))

/-- Bnnn JP V0 (R113): the 16-bit sum is not reduced. -/
def execJpV0 (nnn : Addr12) (s : State) : Host.Outcome State Fault Refusal :=
  .next (s.jump (addrOperand nnn + s.offsetOperand 0))

/-- 3xkk SE (R114). -/
def execSeVxKk (x : Reg) (kk : Byte) (s : State) : Host.Outcome State Fault Refusal :=
  .next (s.skipIf (s.reg x = kk))

/-- 4xkk SNE (R115). -/
def execSneVxKk (x : Reg) (kk : Byte) (s : State) : Host.Outcome State Fault Refusal :=
  .next (s.skipIf (s.reg x ≠ kk))

/-- 5xy0 SE (R116). -/
def execSeVxVy (x y : Reg) (s : State) : Host.Outcome State Fault Refusal :=
  .next (s.skipIf (s.reg x = s.reg y))

/-- 9xy0 SNE (R117). -/
def execSneVxVy (x y : Reg) (s : State) : Host.Outcome State Fault Refusal :=
  .next (s.skipIf (s.reg x ≠ s.reg y))

end Sys2Proof.Machine
end

