-- ==== Sys2Proof/Machine/Display.lean ====
section
/-! DEFINITION. Clearing the display and drawing (spec/43_display.md R200 to R203). -/

namespace Sys2Proof.Machine

/-- 00E0 CLS (R200): VF is not written. -/
def execCls (s : State) : Host.Outcome State Fault Refusal :=
  .next ({ s with fb := Framebuffer.blank, redraw := true }).advance

/-- Whether a draw's sprite passes the top of memory; a draw of no rows reads nothing (R54, R201). -/
def State.spritePassesTop (s : State) (n : Nibble) : Bool := n ≠ 0 && s.spanPassesTop (n.toNat - 1)

/-- The drawing of Dxyn: the coordinates are read before VF is reset (R201). -/
def State.drawSprite (s : State) (x y : Reg) (n : Nibble) : Drawing :=
  drawRows (s.reg x).toNat (s.reg y).toNat (s.spriteBytes n) (s.fb, false)

/-- Dxyn DRW (R201): the range check comes before any write, and redraw is raised on every draw. -/
def execDrw (x y : Reg) (n : Nibble) (s : State) : Host.Outcome State Fault Refusal :=
  if s.spritePassesTop n then .next (s.raise .memoryOutOfRange (.drw x y n))
  else
    let d := s.drawSprite x y n
    .next (({ s with fb := d.1, redraw := true }).setFlag (collisionFlag d)).advance

end Sys2Proof.Machine
end

