-- ==== Sys2Proof/Machine/Index.lean ====
section
/-! DEFINITION. The index register, the BCD store and the block transfers (spec/42_index_memory.md R170 to R176). No
instruction here changes I but the first three (R176). -/

namespace Sys2Proof.Machine

/-- `I <- v; PC <- next`. -/
def State.finishIndex (s : State) (v : Word) : Host.Outcome State Fault Refusal :=
  .next ({ s with I := v }).advance

/-- A store of `bytes` from I up, by instruction `i`: the range checks of the whole span before the first byte (R53, R54). -/
def State.storeAtI (s : State) (i : Instr) (bytes : List Byte) : Host.Outcome State Fault Refusal :=
  if s.spanPassesTop (bytes.length - 1) then .next (s.raise .memoryOutOfRange i)
  else if s.spanInReserved then .next (s.raise .reservedWrite i)
  else .next ({ s with mem := s.mem.writeBytes (s.dataAddr 0) bytes }).advance

/-- Annn LD I (R170). -/
def execLdINnn (nnn : Addr12) (s : State) : Host.Outcome State Fault Refusal := s.finishIndex (addrOperand nnn)

/-- Fx1E ADD I (R171): the 16-bit register wraps, and VF is unchanged. -/
def execAddIVx (x : Reg) (s : State) : Host.Outcome State Fault Refusal := s.finishIndex (s.I + s.offsetOperand x)

/-- Fx29 LD F (R172). -/
def execLdFVx (x : Reg) (s : State) : Host.Outcome State Fault Refusal :=
  s.finishIndex (glyphAddr Config.fontBase.val (s.reg x))

/-- Fx33 LD B (R173). -/
def execLdBVx (x : Reg) (s : State) : Host.Outcome State Fault Refusal := s.storeAtI (.ldBVx x) (bcdDigits (s.reg x))

/-- Fx55 LD [I] (R174): V0 through Vx. -/
def execLdMemVx (x : Reg) (s : State) : Host.Outcome State Fault Refusal := s.storeAtI (.ldMemVx x) (s.regsUpTo x)

/-- Fx65 LD Vx, [I] (R175): V0 through Vx. Reading the reserved region is allowed (R52). -/
def execLdVxMem (x : Reg) (s : State) : Host.Outcome State Fault Refusal :=
  if s.spanPassesTop x then .next (s.raise .memoryOutOfRange (.ldVxMem x))
  else .next (s.loadRegs x (s.dataAddr 0)).advance

end Sys2Proof.Machine
end

