-- ==== Sys2Proof/Machine/KeypadTimers.lean ====
section
/-! DEFINITION. Key skips, the timer transfers and the key-wait instruction (spec/44_keypad_timers.md R220 to R225). -/

namespace Sys2Proof.Machine

/-- A skip on the state of the key `V[x]`, by instruction `i`; a number above 0xF faults (R220, R221). -/
def State.skipOnKey (s : State) (i : Instr) (x : Reg) (held : Bool) : Host.Outcome State Fault Refusal :=
  match keyOperand (s.reg x) with
  | none => .next (s.raise .keyOutOfRange i)
  | some k => .next (s.skipIf (s.keyHeld k == held))

/-- Ex9E SKP (R220). -/
def execSkp (x : Reg) (s : State) : Host.Outcome State Fault Refusal := s.skipOnKey (.skp x) x true

/-- ExA1 SKNP (R221). -/
def execSknp (x : Reg) (s : State) : Host.Outcome State Fault Refusal := s.skipOnKey (.sknp x) x false

/-- Fx07 LD Vx, DT (R222). -/
def execLdVxDt (x : Reg) (s : State) : Host.Outcome State Fault Refusal := .next (s.setReg x s.DT).advance

/-- Fx0A LD Vx, K (R223): Vx is written by the key delivery, not here. -/
def execLdVxK (x : Reg) (s : State) : Host.Outcome State Fault Refusal :=
  .next ({ s with wait := .waitingForKey x }).advance

/-- Fx15 LD DT, Vx (R224). -/
def execLdDtVx (x : Reg) (s : State) : Host.Outcome State Fault Refusal := .next ({ s with DT := s.reg x }).advance

/-- Fx18 LD ST, Vx (R225). -/
def execLdStVx (x : Reg) (s : State) : Host.Outcome State Fault Refusal := .next ({ s with ST := s.reg x }).advance

end Sys2Proof.Machine
end

