-- ==== Sys2Proof/Machine/Fetch.lean ====
section
/-! DEFINITION. The part of a step before the instruction executes (spec/40_cycle_and_control.md R100 to R102). -/

namespace Sys2Proof.Machine

/-- What a step finds to do. -/
inductive Fetched where
  /-- Nothing: the core is halted or waits for a key (R100). -/
  | idle
  /-- A fault of the fetch or of the decoder (R101, R102). -/
  | faulted (cause : FaultCause) (opcode : Option Word)
  /-- An instruction to execute. -/
  | run (i : Instr)
  deriving DecidableEq, Repr

/-- `check_fetch(pc0)`: the fault of a fetch from this address, if any; an odd address first (R101, R304). -/
def checkFetch (pc : Word) : Option FaultCause :=
  if pc.toNat % 2 = 1 then some .misalignedFetch
  else if 0xFFF < pc.toNat + 1 then some .fetchOutOfRange
  else none

/-- The word at PC: `mem[PC] || mem[PC+1]` (R55). -/
def State.fetchWord (s : State) : Word := wordOfBytes (s.mem.read s.PC.toNat) (s.mem.read (s.PC.toNat + 1))

/-- The checks, the fetch and the decoding of a step, in the order of R100. -/
def State.fetch (s : State) : Fetched :=
  match s.halt with
  | some _ => .idle
  | none =>
    match s.wait with
    | .waitingForKey _ => .idle
    | .running =>
      match checkFetch s.PC with
      | some cause => .faulted cause none
      | none =>
        match decode s.fetchWord with
        | .error _ => .faulted .decodeError (some s.fetchWord)
        | .ok i => .run i

end Sys2Proof.Machine
end

