-- ==== Sys2Proof/Machine/Step.lean ====
section
/-! DEFINITION. The step, the core's only transition (spec/40_cycle_and_control.md R100), and placing a word where the next
step fetches. -/

namespace Sys2Proof.Machine

/-- `step()` (R100): nothing while halted or waiting for a key; else a fault of the fetch or the decoder is taken, or the
instruction at PC executes. -/
def step (s : State) : Host.Outcome State Fault Refusal :=
  match s.fetch with
  | .idle => .next s
  | .faulted cause opcode => .next (s.takeFault cause opcode)
  | .run i => exec i s

/-- The state with the word `w` of the opcode table stored at PC, big-endian, and free to fetch: running, not halted. It
is the pipeline's way to place an instruction, not an operation of the machine (the machine's own is `load`, R321). -/
def State.withFetchWord (s : State) (nbits w : Nat) : State :=
  { s with mem := s.mem.writeBytes s.PC.toNat (bytesOfWord (tableWord nbits w)), wait := .running, halt := none }

end Sys2Proof.Machine
end

