-- ==== Sys2Proof/Machine/HostInterface.lean ====
section
/-! DEFINITION. The operations of the external agent, the host (spec/60_exceptions.md R310, R320 to R327), and the one
total order in which they and the steps happen (spec/20_memory.md R60). -/

namespace Sys2Proof.Machine

/-- What `load` answers (R321). -/
inductive LoadResult where
  | ok
  | rejected
  deriving DecidableEq, Repr

/-- `load(bytes)` (R321): a ROM of more than 3584 bytes is rejected with no byte written. -/
def State.load (s : State) (bytes : List Byte) : LoadResult × State :=
  if romMax < bytes.length then (.rejected, s)
  else (.ok, { s with mem := s.mem.writeBytes romBase bytes })

/-- Key delivery: a press while the core waits writes the waiting register and ends the wait (R226). -/
def State.deliverKey (s : State) (k : Fin 16) : State :=
  match s.wait with
  | .running => s
  | .waitingForKey r => { s.setReg r (BitVec.ofNat 8 k) with wait := .running }

/-- The bit of key `k` in the keypad (R29). -/
def keyMask (k : Fin 16) : BitVec 16 := 1#16 <<< k.val

/-- `set_key(k)`, for k in 0..15 (R322). -/
def State.setKey (s : State) (k : Fin 16) : State :=
  ({ s with keypad := s.keypad ||| keyMask k }).deliverKey k

/-- `release_key(k)`, for k in 0..15 (R323). -/
def State.releaseKey (s : State) (k : Fin 16) : State := { s with keypad := s.keypad &&& ~~~keyMask k }

/-- A timer after a tick: one less, and never below 0 (R310, R311). -/
def countDown (v : Byte) : Byte := if v = 0 then 0 else v - 1

/-- `tick_timers()` (R310), in every state. -/
def State.tickTimers (s : State) : State := { s with DT := countDown s.DT, ST := countDown s.ST }

/-- `ack_redraw()` (R325). -/
def State.ackRedraw (s : State) : State := { s with redraw := false }

/-- The full-state dump the host may read (R326). Its printed format is outside the block. -/
structure Dump where
  memorySize : Nat
  V : Vector Byte 16
  I : Word
  DT : Byte
  ST : Byte
  stack : Vector Word 16
  PC : Word
  SP : Fin 17
  deriving DecidableEq, Repr

/-- The dump of a state (R326). The grid, the redraw flag and the halt record are read from the state's own fields. -/
def State.dump (s : State) : Dump := ⟨memSize, s.V, s.I, s.DT, s.ST, s.stack, s.PC, s.SP⟩

/-- Whether the core is in WaitingForKey, which the host may read (R326). -/
def State.isWaiting (s : State) : Bool :=
  match s.wait with
  | .running => false
  | .waitingForKey _ => true

/-- One operation of the total order: a step of the core, or an operation of the host that changes state (R60, R320). A key
number above 15 is refused at the interface, so it has no event (R322, D26). -/
inductive Event where
  | step
  | load (bytes : List Byte)
  | setKey (k : Fin 16)
  | releaseKey (k : Fin 16)
  | tickTimers
  | ackRedraw
  deriving DecidableEq, Repr

/-- What an event does. Each is indivisible (R59). -/
def applyEvent (e : Event) (s : State) : Host.Outcome State Fault Refusal :=
  match e with
  | .step => Sys2Proof.Machine.step s
  | .load bytes => .next (s.load bytes).2
  | .setKey k => .next (s.setKey k)
  | .releaseKey k => .next (s.releaseKey k)
  | .tickTimers => .next s.tickTimers
  | .ackRedraw => .next s.ackRedraw

/-- A sequence of events: each sees the effects of all before it (R60). Which events come, and when, is the host's choice,
so a claim over sequences is a claim for every interleaving (D20). -/
def runEvents : List Event → State → Host.Outcome State Fault Refusal
  | [], s => .next s
  | e :: rest, s =>
    match applyEvent e s with
    | .next t => runEvents rest t
    | .fault f => .fault f
    | .refused r => .refused r

end Sys2Proof.Machine
end

