-- ==== Sys2Proof/Safety.lean ====
section
/-! DEFINITION. The terms the claims use: a run without a fault, a successful end, the invariant of the machine, and what a
step leaves unchanged. -/

namespace Sys2Proof.Machine

/-! ### Faults and ends of runs -/

/-- The halt latch is set: never a successful end, and it refutes a claim that requires no fault (R303). -/
def State.faulted (s : State) : Bool := s.halt.isSome

/-- A step of a run that must not fault: a state with the latch set is a fault outcome (R303). -/
def noFaultStep (s : State) : Host.Outcome State Fault Refusal :=
  match step s with
  | .next t =>
    match t.halt with
    | some record => .fault (.halted record)
    | none => .next t
  | o => o

/-- A fetch from this address raises no fault: it is even and both bytes are in memory (R101). -/
def fetchable (pc : Word) : Prop := pc.toNat % 2 = 0 ∧ pc.toNat ≤ 0xFFE

/-- The core may execute: it is neither halted nor waiting for a key (R100). -/
def State.active (s : State) : Prop := s.halt = none ∧ s.wait = .running

/-- PC addresses instruction `i`: it can be fetched, and its two bytes decode to `i`. -/
def State.decodesTo (s : State) (i : Instr) : Prop := fetchable s.PC ∧ decode s.fetchWord = .ok i

/-- A program's successful end: PC addresses a jump to itself, with no fault and no wait (R358, D28). -/
def State.ended (s : State) : Prop := s.active ∧ ∃ nnn : Addr12, s.decodesTo (.jp nnn) ∧ nnn.toNat = s.PC.toNat

/-- When a step of an active core raises each fault: the table of R300. The conditions exclude each other (R304). -/
def FaultCause.condition (s : State) : FaultCause → Prop
  | .decodeError => fetchable s.PC ∧ ∀ i, decode s.fetchWord ≠ .ok i
  | .stackOverflow => ∃ nnn, s.decodesTo (.call nnn) ∧ s.SP.val = 16
  | .stackUnderflow => s.decodesTo .ret ∧ s.SP.val = 0
  | .memoryOutOfRange =>
    (∃ x y n, s.decodesTo (.drw x y n) ∧ 1 ≤ n.toNat ∧ 0xFFF < s.I.toNat + n.toNat - 1) ∨
    (∃ x, s.decodesTo (.ldBVx x) ∧ 0xFFF < s.I.toNat + 2) ∨
    (∃ x, (s.decodesTo (.ldMemVx x) ∨ s.decodesTo (.ldVxMem x)) ∧ 0xFFF < s.I.toNat + x.val)
  | .fetchOutOfRange => s.PC.toNat % 2 = 0 ∧ 0x1000 ≤ s.PC.toNat
  | .misalignedFetch => s.PC.toNat % 2 = 1
  | .reservedWrite => ∃ x, (s.decodesTo (.ldBVx x) ∨ s.decodesTo (.ldMemVx x)) ∧ s.I.toNat < 0x200
  | .keyOutOfRange => ∃ x, (s.decodesTo (.skp x) ∨ s.decodesTo (.sknp x)) ∧ 0xF < (s.reg x).toNat

/-- A fetch at address `a` gives `v` as the high byte of its word, and a fetch one address below gives it as the low byte. -/
def State.fetchSees (s : State) (a v : Nat) : Prop :=
  (s.PC.toNat = a → s.fetchWord.toNat / 0x100 = v) ∧ (s.PC.toNat + 1 = a → s.fetchWord.toNat % 0x100 = v)

/-! ### What is unchanged -/

/-- A part of the state, as finely as a frame speaks of it. -/
inductive Part where
  | reg (r : Reg)
  | I
  | PC
  | SP
  | frame (j : Fin 16)
  | DT
  | ST
  | byte (a : Nat)
  | keypad
  | display
  | redraw
  | wait
  | halt
  | draws
  deriving DecidableEq, Repr

/-- A part is the same in two states. A byte of memory is compared through the model's read of it. -/
def Part.same (s t : State) : Part → Prop
  | .reg r => t.reg r = s.reg r
  | .I => t.I = s.I
  | .PC => t.PC = s.PC
  | .SP => t.SP = s.SP
  | .frame j => t.stack[j] = s.stack[j]
  | .DT => t.DT = s.DT
  | .ST => t.ST = s.ST
  | .byte a => t.mem.read a = s.mem.read a
  | .keypad => t.keypad = s.keypad
  | .display => t.fb = s.fb
  | .redraw => t.redraw = s.redraw
  | .wait => t.wait = s.wait
  | .halt => t.halt = s.halt
  | .draws => t.draws = s.draws

/-- Every part of the state but the listed ones is the same: the frame of an operation from `s` to `t`. -/
def unchangedBut (parts : List Part) (s t : State) : Prop := ∀ p, p ∉ parts → p.same s t

/-- PC is `d` bytes past the instruction, for an instruction that a step can fetch: no sum here reaches 2^16 (R24, R101). -/
def advancesBy (d : Nat) (s t : State) : Prop := fetchable s.PC → t.PC.toNat = s.PC.toNat + d

/-- The fault was taken with this record, and nothing else changed (R301, R302). -/
def faultsWith (cause : FaultCause) (opcode : Option Word) (s t : State) : Prop :=
  t.halt = some ⟨cause, s.PC, opcode⟩ ∧ unchangedBut [.halt] s t

/-- The registers V0 to Vx. -/
def regsThrough (x : Reg) : List Part := ((List.finRange 16).filter (· ≤ x)).map .reg

/-- The `n` bytes of memory from I up. -/
def bytesFromI (s : State) (n : Nat) : List Part := (List.range n).map fun k => .byte (s.dataAddr k)

/-- The parts an instruction may write, read off R22, R40, R24 and the instruction rules; a store's addresses are computed
from I (R58). -/
def State.mayWrite (s : State) : Instr → List Part
  | .cls => [.PC, .display, .redraw]
  | .ret => [.PC, .SP, .halt]
  | .jp _ => [.PC]
  | .call _ => if h : s.SP.val < 16 then [.PC, .SP, .frame ⟨s.SP.val, h⟩, .halt] else [.halt]
  | .seVxKk _ _ => [.PC]
  | .sneVxKk _ _ => [.PC]
  | .seVxVy _ _ => [.PC]
  | .ldVxKk x _ => [.PC, .reg x]
  | .addVxKk x _ => [.PC, .reg x]
  | .ldVxVy x _ => [.PC, .reg x]
  | .orVxVy x _ => [.PC, .reg x]
  | .andVxVy x _ => [.PC, .reg x]
  | .xorVxVy x _ => [.PC, .reg x]
  | .addVxVy x _ => [.PC, .reg x, .reg 0xF]
  | .subVxVy x _ => [.PC, .reg x, .reg 0xF]
  | .shrVx x _ => [.PC, .reg x, .reg 0xF]
  | .subnVxVy x _ => [.PC, .reg x, .reg 0xF]
  | .shlVx x _ => [.PC, .reg x, .reg 0xF]
  | .sneVxVy _ _ => [.PC]
  | .ldINnn _ => [.PC, .I]
  | .jpV0 _ => [.PC]
  | .rnd x _ => [.PC, .reg x, .draws]
  | .drw _ _ _ => [.PC, .reg 0xF, .display, .redraw, .halt]
  | .skp _ => [.PC, .halt]
  | .sknp _ => [.PC, .halt]
  | .ldVxDt x => [.PC, .reg x]
  | .ldVxK _ => [.PC, .wait]
  | .ldDtVx _ => [.PC, .DT]
  | .ldStVx _ => [.PC, .ST]
  | .addIVx _ => [.PC, .I]
  | .ldFVx _ => [.PC, .I]
  | .ldBVx _ => [.PC, .halt] ++ bytesFromI s 3
  | .ldMemVx x => [.PC, .halt] ++ bytesFromI s (x.val + 1)
  | .ldVxMem x => [.PC, .halt] ++ regsThrough x

/-- Where PC goes after an instruction that does not fault, fetched at `pc0`: `next`, `next + 2` for a taken skip, or the
target (R103). -/
def State.pcAfter (s : State) : Instr → Nat
  | .ret => (s.stack[s.SP.val - 1]?.getD 0).toNat
  | .jp nnn => nnn.toNat
  | .call nnn => nnn.toNat
  | .jpV0 nnn => nnn.toNat + (s.reg 0).toNat
  | .seVxKk x kk => s.PC.toNat + if s.reg x = kk then 4 else 2
  | .sneVxKk x kk => s.PC.toNat + if s.reg x = kk then 2 else 4
  | .seVxVy x y => s.PC.toNat + if s.reg x = s.reg y then 4 else 2
  | .sneVxVy x y => s.PC.toNat + if s.reg x = s.reg y then 2 else 4
  | .skp x => s.PC.toNat + if s.keypad.getLsbD (s.reg x).toNat then 4 else 2
  | .sknp x => s.PC.toNat + if s.keypad.getLsbD (s.reg x).toNat then 2 else 4
  | _ => s.PC.toNat + 2

/-- Whether a set bit of the sprite of Dxyn falls on pixel `(r, c)`: row `k` of the sprite is the byte at `I + k`, its bit 7
the leftmost column, and both coordinates wrap (R201, R203). -/
def State.spriteSets (s : State) (x y : Reg) (n : Nibble) (r : Fin 32) (c : Fin 64) : Prop :=
  ∃ k < n.toNat, ∃ j < 8, (s.mem.read (s.I.toNat + k)).getLsbD (7 - j) = true ∧
    ((s.reg y).toNat + k) % 32 = r.val ∧ ((s.reg x).toNat + j) % 64 = c.val

/-- An instruction's encoding, as a number: the decoder reads that word as the instruction, and it is the instruction's word. -/
def encodedAs (i : Instr) (w : Nat) : Prop := decode (BitVec.ofNat 16 w) = .ok i ∧ encode i = BitVec.ofNat 16 w

/-! ### The invariant of the machine -/

/-- A return address CALL can have pushed: even, past an instruction that could be fetched (R101, R112). -/
def returnAddress (v : Word) : Prop := v.toNat % 2 = 0 ∧ 2 ≤ v.toNat ∧ v.toNat ≤ 0x1000

/-- A record has an opcode exactly where a word was fetched (R301). -/
def FaultRecord.opcodeFits (r : FaultRecord) : Prop :=
  r.opcode = none ↔ r.cause = .fetchOutOfRange ∨ r.cause = .misalignedFetch

/-- What holds in every state the machine can reach, whatever the host does. -/
structure State.Inv (s : State) : Prop where
  /-- Memory keeps its canonical form. -/
  memWf : s.mem.wf
  /-- The reserved region holds what creation put there (R51, R53). -/
  reservedIntact : ∀ a < romBase, s.mem.read a = Memory.unlisted a
  /-- Every frame on the stack is a return address (R112). -/
  frames : ∀ j : Fin 16, j.val < s.SP.val → returnAddress s.stack[j]
  /-- A wait and a halt never hold together (R327). -/
  waitOrHalt : s.halt = none ∨ s.wait = .running
  /-- The halt record is of the instruction PC still addresses (R301, R302). -/
  recordFits : ∀ r, s.halt = some r → r.pc = s.PC ∧ r.opcodeFits

/-- Two states that no program can tell apart: they agree on all but the sound timer, the redraw flag and the stack entries
at or above SP (R26, R28, R31), and on how memory is listed. -/
def State.sameForPrograms (s t : State) : Prop :=
  (∀ r, t.reg r = s.reg r) ∧ t.I = s.I ∧ t.PC = s.PC ∧ t.SP = s.SP ∧
  (∀ j : Fin 16, j.val < s.SP.val → t.stack[j] = s.stack[j]) ∧ t.DT = s.DT ∧
  (∀ a, t.mem.read a = s.mem.read a) ∧ t.keypad = s.keypad ∧ t.fb = s.fb ∧
  t.wait = s.wait ∧ t.halt = s.halt ∧ t.draws = s.draws

end Sys2Proof.Machine
end

