-- ==== Sys2Proof/Certificates/Slice0/Obligations.lean ====
section
/-! DEFINITION. The statements for the provers, from the numbered rules of spec/. A statement `∃ t, exec i s = .next t ∧ …`
says that the instruction completes and what the next state is. -/

open Sys2Proof Sys2Proof.Machine

/-! ### Encoding (spec/30_encoding.md) -/

/-- Decoding an encoded instruction gives it back, on words and at the head of any bytes (R70, R73, R74). -/
def Obligations.DecodeOfEncode : Prop :=
  ∀ i : Instr, decode (encode i) = .ok i ∧
    ∀ rest : List Byte, decodeBytes (bytesOfWord (encode i) ++ rest) = .ok (i, rest)

/-- A word that decodes is the encoding of what it decodes to: no bit of a legal word is dropped (R73, R74). -/
def Obligations.EncodeOfDecode : Prop :=
  ∀ (w : Word) (i : Instr), decode w = .ok i → encode i = w

/-- Every format's fields stand where R73 puts them, for every instruction and every operand. -/
def Obligations.EveryFormatIsRead : Prop :=
  ∀ (x y : Reg) (n : Nibble) (kk : Byte) (nnn : Addr12),
    (encodedAs .cls 0x00E0 ∧ encodedAs .ret 0x00EE) ∧
    (encodedAs (.jp nnn) (0x1000 + nnn.toNat) ∧ encodedAs (.call nnn) (0x2000 + nnn.toNat) ∧
      encodedAs (.ldINnn nnn) (0xA000 + nnn.toNat) ∧ encodedAs (.jpV0 nnn) (0xB000 + nnn.toNat)) ∧
    (encodedAs (.seVxKk x kk) (0x3000 + x.val * 0x100 + kk.toNat) ∧ encodedAs (.sneVxKk x kk) (0x4000 + x.val * 0x100 + kk.toNat) ∧
      encodedAs (.ldVxKk x kk) (0x6000 + x.val * 0x100 + kk.toNat) ∧ encodedAs (.addVxKk x kk) (0x7000 + x.val * 0x100 + kk.toNat) ∧
      encodedAs (.rnd x kk) (0xC000 + x.val * 0x100 + kk.toNat)) ∧
    (encodedAs (.seVxVy x y) (0x5000 + x.val * 0x100 + y.val * 0x10) ∧ encodedAs (.ldVxVy x y) (0x8000 + x.val * 0x100 + y.val * 0x10) ∧
      encodedAs (.orVxVy x y) (0x8001 + x.val * 0x100 + y.val * 0x10) ∧ encodedAs (.andVxVy x y) (0x8002 + x.val * 0x100 + y.val * 0x10) ∧
      encodedAs (.xorVxVy x y) (0x8003 + x.val * 0x100 + y.val * 0x10) ∧ encodedAs (.addVxVy x y) (0x8004 + x.val * 0x100 + y.val * 0x10) ∧
      encodedAs (.subVxVy x y) (0x8005 + x.val * 0x100 + y.val * 0x10) ∧ encodedAs (.shrVx x y) (0x8006 + x.val * 0x100 + y.val * 0x10) ∧
      encodedAs (.subnVxVy x y) (0x8007 + x.val * 0x100 + y.val * 0x10) ∧ encodedAs (.shlVx x y) (0x800E + x.val * 0x100 + y.val * 0x10) ∧
      encodedAs (.sneVxVy x y) (0x9000 + x.val * 0x100 + y.val * 0x10)) ∧
    encodedAs (.drw x y n) (0xD000 + x.val * 0x100 + y.val * 0x10 + n.toNat) ∧
    (encodedAs (.skp x) (0xE09E + x.val * 0x100) ∧ encodedAs (.sknp x) (0xE0A1 + x.val * 0x100) ∧
      encodedAs (.ldVxDt x) (0xF007 + x.val * 0x100) ∧ encodedAs (.ldVxK x) (0xF00A + x.val * 0x100) ∧
      encodedAs (.ldDtVx x) (0xF015 + x.val * 0x100) ∧ encodedAs (.ldStVx x) (0xF018 + x.val * 0x100) ∧
      encodedAs (.addIVx x) (0xF01E + x.val * 0x100) ∧ encodedAs (.ldFVx x) (0xF029 + x.val * 0x100) ∧
      encodedAs (.ldBVx x) (0xF033 + x.val * 0x100) ∧ encodedAs (.ldMemVx x) (0xF055 + x.val * 0x100) ∧
      encodedAs (.ldVxMem x) (0xF065 + x.val * 0x100))

/-- The words the decoder refuses are exactly the illegal words of R76, family by family; among them every 0nnn but 00E0 and
00EE (R77, the spec's decision D25). Each refusal names its word. -/
def Obligations.IllegalWordsAreRefused : Prop :=
  ∀ w : Word,
    (∀ e, decode w = .error e → e = .illegalWord w) ∧
    ((∀ i, decode w ≠ .ok i) ↔
      (w.toNat / 0x1000 = 0x0 ∧ w.toNat ≠ 0x00E0 ∧ w.toNat ≠ 0x00EE) ∨
      (w.toNat / 0x1000 = 0x5 ∧ w.toNat % 0x10 ≠ 0) ∨
      (w.toNat / 0x1000 = 0x8 ∧ w.toNat % 0x10 ∈ [0x8, 0x9, 0xA, 0xB, 0xC, 0xD, 0xF]) ∨
      (w.toNat / 0x1000 = 0x9 ∧ w.toNat % 0x10 ≠ 0) ∨
      (w.toNat / 0x1000 = 0xE ∧ w.toNat % 0x100 ∉ [0x9E, 0xA1]) ∨
      (w.toNat / 0x1000 = 0xF ∧ w.toNat % 0x100 ∉ [0x07, 0x0A, 0x15, 0x18, 0x1E, 0x29, 0x33, 0x55, 0x65]))

/-- The opcode table and the decoder agree: a word that decodes matches the row of its instruction and no other, and a word
that is refused matches none (R75, R80). -/
def Obligations.OpcodeTableAgrees : Prop :=
  ∀ w : Word,
    (∀ i, decode w = .ok i → ∀ row ∈ opcodeRows, row.matchesWord w = true ↔ row.mnemonic = i.mnemonic) ∧
    (∀ e, decode w = .error e → ∀ row ∈ opcodeRows, row.matchesWord w = false)

/-- Words of spec/95_test_vectors.md, one per family, written out from the spec's encodings. -/
def Obligations.SampleWordsDecode : Prop :=
  decode 0x00E0 = .ok .cls ∧ decode 0x00EE = .ok .ret ∧ decode 0x1ABC = .ok (.jp 0xABC) ∧
  decode 0x2210 = .ok (.call 0x210) ∧ decode 0x3305 = .ok (.seVxKk 3 0x05) ∧ decode 0x5120 = .ok (.seVxVy 1 2) ∧
  decode 0x8F14 = .ok (.addVxVy 0xF 1) ∧ decode 0x801E = .ok (.shlVx 0 1) ∧ decode 0xBFFF = .ok (.jpV0 0xFFF) ∧
  decode 0xC00F = .ok (.rnd 0 0x0F) ∧ decode 0xD125 = .ok (.drw 1 2 5) ∧ decode 0xE3A1 = .ok (.sknp 3) ∧
  decode 0xFF55 = .ok (.ldMemVx 0xF) ∧ decode 0x0123 = .error (.illegalWord 0x0123)

/-! ### The step (spec/40_cycle_and_control.md, spec/60_exceptions.md) -/

/-- A step of an active core whose two bytes at PC decode to an instruction is that instruction's execution; the step adds
nothing around it (R100). -/
def Obligations.StepRunsTheDecodedInstruction : Prop :=
  ∀ (s : State) (i : Instr), s.active → fetchable s.PC →
    decodeBytes [s.mem.read s.PC.toNat, s.mem.read (s.PC.toNat + 1)] = .ok (i, []) → step s = exec i s

/-- The step of R100 with the checks of R101 and R102, in their order: nothing while halted or waiting; MisalignedFetch at
an odd PC; FetchOutOfRange at an even PC from 0x1000 up, both with no opcode; DecodeError on an illegal word, with it; else
the instruction executes. The two fetch faults are the spec's decisions D11 and D12, the wait inside the step D18. -/
def Obligations.StepFollowsItsChecks : Prop :=
  ∀ s : State,
    (s.halt ≠ none → step s = .next s) ∧
    (s.halt = none → ∀ r, s.wait = .waitingForKey r → step s = .next s) ∧
    (s.active → s.PC.toNat % 2 = 1 → ∃ t, step s = .next t ∧ faultsWith .misalignedFetch none s t) ∧
    (s.active → s.PC.toNat % 2 = 0 → 0x1000 ≤ s.PC.toNat →
      ∃ t, step s = .next t ∧ faultsWith .fetchOutOfRange none s t) ∧
    (s.active → fetchable s.PC → ∀ w : Word,
      w.toNat = (s.mem.read s.PC.toNat).toNat * 0x100 + (s.mem.read (s.PC.toNat + 1)).toNat →
      ((∀ i, decode w ≠ .ok i) → ∃ t, step s = .next t ∧ faultsWith .decodeError (some w) s t) ∧
      (∀ i, decode w = .ok i → step s = exec i s))

/-- Every instruction and every step answers a next state: each fatal condition is taken by the halt latch, and nothing else
stops the machine (R300, R302). That a fatal condition is a next state, and no fault outcome, is the model's reading of
them: log entry 3 (DEDUCED). -/
def Obligations.EveryStepAnswersNext : Prop :=
  (∀ (i : Instr) (s : State), ∃ t, exec i s = .next t) ∧ ∀ s : State, ∃ t, step s = .next t

/-- A fault is precise: a step that latches halt changes nothing else, so PC stays pc0; the record holds PC, and the fetched
word but for the two faults of the fetch (R301, R302, the spec's decision D16). -/
def Obligations.FaultEntryIsPrecise : Prop :=
  ∀ s t : State, s.halt = none → step s = .next t → ∀ record, t.halt = some record →
    unchangedBut [.halt] s t ∧ record.pc = s.PC ∧
    (record.cause = .fetchOutOfRange ∨ record.cause = .misalignedFetch → record.opcode = none) ∧
    (record.cause ≠ .fetchOutOfRange → record.cause ≠ .misalignedFetch → record.opcode = some s.fetchWord)

/-- A step of an active core raises a fault exactly when the table of R300 says so, at most one, in the order of R304; the
causes have the codes of the table, and each is fatal: a core that has halted executes nothing more. The codes and the order
are the spec's decision D17, the fetch, reserved-region and key faults D11 to D14. -/
def Obligations.FaultsAreExactlyTheTable : Prop :=
  (∀ s t : State, s.active → step s = .next t →
    ∀ cause : FaultCause, (∃ record, t.halt = some record ∧ record.cause = cause) ↔ cause.condition s) ∧
  [FaultCause.decodeError, .stackOverflow, .stackUnderflow, .memoryOutOfRange, .fetchOutOfRange, .misalignedFetch,
    .reservedWrite, .keyOutOfRange].map FaultCause.code = [1, 2, 3, 4, 5, 6, 7, 8] ∧
  ∀ t : State, t.halt ≠ none → step t = .next t

/-- The halted state is absorbing, whatever the host does: the latch keeps its record, a step has no effect, a run that must
not fault stops there and it is no successful end; and every host operation does in a halted state what it does in any
(R303). That the host's operations act in it is the spec's decision D32 (R327), that it is no end of a program D28 (R358);
`noFaultStep` is the model's own device for what R303 asks (log entry 3). -/
def Obligations.HaltIsAbsorbing : Prop :=
  (∀ (events : List Event) (s t : State) (record : FaultRecord), s.halt = some record → runEvents events s = .next t →
    t.halt = some record ∧ step t = .next t ∧ noFaultStep t = .fault (.halted record) ∧ ¬ t.ended) ∧
  (∀ (e : Event) (s t : State) (record : FaultRecord), e ≠ .step → applyEvent e s = .next t →
    applyEvent e { s with halt := some record } = .next { t with halt := some record })

/-- Where PC goes after every instruction that does not fault: `next`, two more for a taken skip, or the target (R103). The
targets are those of R110 to R113 and the skips' conditions those of R114 to R117, R220 and R221; that nnn + V0 is not
reduced is the spec's decision D10. The premise on PC leaves out the addresses from which no step executes (log entry 7). -/
def Obligations.PcTakesOneOfThreeValues : Prop :=
  ∀ (i : Instr) (s t : State), fetchable s.PC → s.halt = none → exec i s = .next t → t.halt = none →
    t.PC.toNat = s.pcAfter i

/-- The frame of every instruction: it changes no part of the state but the parts its rule writes, and a store changes no
byte of memory but those at the addresses computed from I (R22, R40, R58). It holds that OR, AND and XOR keep VF, that the
block transfers keep I, that ADD I keeps VF and that a popped entry keeps its value: the spec's decisions D7, D8, D9 and D35
(log entry 11). The counter of draws, which RND alone moves, is the model's own field (log entry 2). -/
def Obligations.InstructionsWriteOnlyTheirParts : Prop :=
  ∀ (i : Instr) (s t : State), exec i s = .next t → unchangedBut (s.mayWrite i) s t

/-- No program can tell apart two states that differ in the sound timer, the redraw flag and the stack entries at or above
SP alone (R26, R28, R31). The two states also agree on the model's own counter of draws (log entry 2). -/
def Obligations.HiddenStateIsUnobservable : Prop :=
  ∀ s s' t t' : State, s.sameForPrograms s' → step s = .next t → step s' = .next t' → t.sameForPrograms t'

/-! ### Reset and the invariant (spec/10_state.md, spec/70_reset_and_hazards.md) -/

/-- The values of R36: every register, the stack, the timers, memory, the keypad, the display and the hidden state. Those of
the keypad, the display, redraw and wait are the spec's decision D21. -/
def Obligations.ResetValues : Prop :=
  (∀ r, State.reset.reg r = 0x00) ∧ State.reset.I = 0x0000 ∧ State.reset.PC = 0x200 ∧ State.reset.SP = 0 ∧
  (∀ j : Fin 16, State.reset.stack[j] = 0x0000) ∧ State.reset.DT = 0 ∧ State.reset.ST = 0 ∧
  (∀ k : Fin 80, State.reset.mem.read (Config.fontBase.val + k.val) = Config.font[k]) ∧
  (∀ a < 0x1000, a < Config.fontBase.val ∨ Config.fontBase.val + 80 ≤ a → State.reset.mem.read a = 0x00) ∧
  State.reset.keypad = 0x0000 ∧ (∀ r c, State.reset.fb.pixel r c = false) ∧ State.reset.redraw = false ∧
  State.reset.wait = .running ∧ State.reset.halt = none

/-- The invariant holds at reset. That the core runs at creation is the spec's decision D21; the canonical form of memory is
the model's (log entry 6). -/
def Obligations.ResetMeetsInvariant : Prop := State.reset.Inv

/-- Every step keeps the invariant: memory's canonical form, the reserved region, the return addresses on the stack, the
exclusion of wait and halt, and the halt record. The reserved region rests on the spec's decision D13; the return addresses
on the fetch checks of R101 (D11, D12) and on the value CALL pushes (D31); the record on D16 (log entry 11). The canonical
form of memory is the model's own (log entry 6). -/
def Obligations.StepKeepsInvariant : Prop :=
  ∀ s t : State, s.Inv → step s = .next t → t.Inv

/-- Every interleaving of steps and host operations keeps the invariant (R60). The reserved region rests on the spec's
decision D13; the return addresses on the fetch checks of R101 (D11, D12) and on the value CALL pushes (D31); the record on
D16 (log entry 11). The canonical form of memory is the model's own (log entry 6). That the host may act at any point
between steps is D20 (log entry 8). -/
def Obligations.EveryInterleavingKeepsInvariant : Prop :=
  ∀ (events : List Event) (s t : State), s.Inv → runEvents events s = .next t → t.Inv

/-- The font and the rest of the reserved region never change, from any state, whatever program and host do (R51, R53). The
write fault behind it is the spec's decision D13. -/
def Obligations.ReservedRegionNeverChanges : Prop :=
  ∀ (events : List Event) (s t : State), runEvents events s = .next t →
    ∀ a < 0x200, t.mem.read a = s.mem.read a

/-! ### Control transfer (spec/40_cycle_and_control.md) -/

/-- RET: it pops the last frame and resumes there; with no frame it faults (R110). That the popped entry keeps its value is
the spec's decision D35 (R26); that the fault changes nothing else is D16 (R301, R302), and its opcode is log entry 4. -/
def Obligations.ReturnPopsOrUnderflows : Prop :=
  encodedAs .ret 0x00EE ∧ ∀ s : State,
    (s.SP.val ≠ 0 → ∃ t, exec .ret s = .next t ∧ t.SP.val + 1 = s.SP.val ∧
      (∀ j : Fin 16, j.val + 1 = s.SP.val → t.PC = s.stack[j]) ∧ unchangedBut [.PC, .SP] s t) ∧
    (s.SP.val = 0 → ∃ t, exec .ret s = .next t ∧ faultsWith .stackUnderflow (some 0x00EE) s t)

/-- CALL: it pushes the address after it and jumps; with 16 frames it faults (R112; the address after is the spec's decision
D31). The record of a fault and its precision are D16 and log entry 4. -/
def Obligations.CallPushesOrOverflows : Prop :=
  ∀ (s : State) (nnn : Addr12), encodedAs (.call nnn) (0x2000 + nnn.toNat) ∧
    (s.SP.val < 16 → ∃ t, exec (.call nnn) s = .next t ∧ t.SP.val = s.SP.val + 1 ∧ t.PC.toNat = nnn.toNat ∧
      ∀ j : Fin 16, j.val = s.SP.val →
        (fetchable s.PC → t.stack[j].toNat = s.PC.toNat + 2) ∧ unchangedBut [.PC, .SP, .frame j] s t) ∧
    (s.SP.val = 16 → ∃ t, exec (.call nnn) s = .next t ∧
      faultsWith .stackOverflow (some (BitVec.ofNat 16 (0x2000 + nnn.toNat))) s t)

/-- JP and JP V0: the target is the address field, or its sum with V0, which is not reduced; any target jumps, odd or out of
range (R104, R111, R113; the unreduced sum is the spec's decision D10). -/
def Obligations.JumpsGoToTheirTargets : Prop :=
  ∀ (s : State) (nnn : Addr12),
    (encodedAs (.jp nnn) (0x1000 + nnn.toNat) ∧
      ∃ t, exec (.jp nnn) s = .next t ∧ t.PC.toNat = nnn.toNat ∧ unchangedBut [.PC] s t) ∧
    (encodedAs (.jpV0 nnn) (0xB000 + nnn.toNat) ∧
      ∃ t, exec (.jpV0 nnn) s = .next t ∧ t.PC.toNat = nnn.toNat + (s.reg 0).toNat ∧ unchangedBut [.PC] s t)

/-- SE and SNE, with a byte and with a register: 4 past the instruction when the condition holds, 2 when not, and nothing
but PC changes (R114, R115, R116, R117). -/
def Obligations.SkipsCompare : Prop :=
  ∀ (s : State) (x y : Reg) (kk : Byte),
    (encodedAs (.seVxKk x kk) (0x3000 + x.val * 0x100 + kk.toNat) ∧ ∃ t, exec (.seVxKk x kk) s = .next t ∧
      advancesBy (if (s.reg x).toNat = kk.toNat then 4 else 2) s t ∧ unchangedBut [.PC] s t) ∧
    (encodedAs (.sneVxKk x kk) (0x4000 + x.val * 0x100 + kk.toNat) ∧ ∃ t, exec (.sneVxKk x kk) s = .next t ∧
      advancesBy (if (s.reg x).toNat = kk.toNat then 2 else 4) s t ∧ unchangedBut [.PC] s t) ∧
    (encodedAs (.seVxVy x y) (0x5000 + x.val * 0x100 + y.val * 0x10) ∧ ∃ t, exec (.seVxVy x y) s = .next t ∧
      advancesBy (if (s.reg x).toNat = (s.reg y).toNat then 4 else 2) s t ∧ unchangedBut [.PC] s t) ∧
    (encodedAs (.sneVxVy x y) (0x9000 + x.val * 0x100 + y.val * 0x10) ∧ ∃ t, exec (.sneVxVy x y) s = .next t ∧
      advancesBy (if (s.reg x).toNat = (s.reg y).toNat then 2 else 4) s t ∧ unchangedBut [.PC] s t)

/-- CALL then RET: from a state whose call did not overflow, a return from any state with the same call stack resumes at the
instruction after the call with the stack pointer as it was (R110, R112; conflict C3). That CALL pushes the address after it
is the spec's decision D31. -/
def Obligations.ReturnResumesAfterCall : Prop :=
  ∀ (s t u : State) (nnn : Addr12), fetchable s.PC → s.SP.val < 16 → exec (.call nnn) s = .next t →
    u.SP = t.SP → u.stack = t.stack →
    ∃ v, exec .ret u = .next v ∧ v.PC.toNat = s.PC.toNat + 2 ∧ v.SP = s.SP ∧
      ∀ j : Fin 16, j.val < s.SP.val → v.stack[j] = s.stack[j]

/-- A program's successful end is a fixed point: however often the core is stepped there, nothing changes (R111, R358). That
this is a program's end is the spec's decision D28. -/
def Obligations.SelfJumpIsIdle : Prop :=
  ∀ s : State, s.ended → ∀ n : Nat, core.run n s = .next s

/-! ### Loads and the ALU (spec/41_alu.md) -/

/-- LD Vx, byte and ADD Vx, byte: the byte, and the sum mod 256 with no flag (R131, R132). -/
def Obligations.ImmediateLoadAndAdd : Prop :=
  ∀ (s : State) (x : Reg) (kk : Byte),
    (encodedAs (.ldVxKk x kk) (0x6000 + x.val * 0x100 + kk.toNat) ∧ ∃ t, exec (.ldVxKk x kk) s = .next t ∧
      t.reg x = kk ∧ advancesBy 2 s t ∧ unchangedBut [.PC, .reg x] s t) ∧
    (encodedAs (.addVxKk x kk) (0x7000 + x.val * 0x100 + kk.toNat) ∧ ∃ t, exec (.addVxKk x kk) s = .next t ∧
      (t.reg x).toNat = ((s.reg x).toNat + kk.toNat) % 256 ∧ advancesBy 2 s t ∧ unchangedBut [.PC, .reg x] s t)

/-- LD, OR, AND and XOR of two registers, bit by bit; VF is unchanged but as the destination (R133, R134, R135, R136; the
spec's decision D7). -/
def Obligations.CopyAndLogic : Prop :=
  ∀ (s : State) (x y : Reg),
    (encodedAs (.ldVxVy x y) (0x8000 + x.val * 0x100 + y.val * 0x10) ∧ ∃ t, exec (.ldVxVy x y) s = .next t ∧
      t.reg x = s.reg y ∧ advancesBy 2 s t ∧ unchangedBut [.PC, .reg x] s t) ∧
    (encodedAs (.orVxVy x y) (0x8001 + x.val * 0x100 + y.val * 0x10) ∧ ∃ t, exec (.orVxVy x y) s = .next t ∧
      (∀ k < 8, (t.reg x).getLsbD k = ((s.reg x).getLsbD k || (s.reg y).getLsbD k)) ∧
      advancesBy 2 s t ∧ unchangedBut [.PC, .reg x] s t) ∧
    (encodedAs (.andVxVy x y) (0x8002 + x.val * 0x100 + y.val * 0x10) ∧ ∃ t, exec (.andVxVy x y) s = .next t ∧
      (∀ k < 8, (t.reg x).getLsbD k = ((s.reg x).getLsbD k && (s.reg y).getLsbD k)) ∧
      advancesBy 2 s t ∧ unchangedBut [.PC, .reg x] s t) ∧
    (encodedAs (.xorVxVy x y) (0x8003 + x.val * 0x100 + y.val * 0x10) ∧ ∃ t, exec (.xorVxVy x y) s = .next t ∧
      (∀ k < 8, (t.reg x).getLsbD k = ((s.reg x).getLsbD k != (s.reg y).getLsbD k)) ∧
      advancesBy 2 s t ∧ unchangedBut [.PC, .reg x] s t)

/-- ADD of two registers: the sum mod 256, and VF the carry (R138). That VF ends holding the carry when it is the
destination is the spec's decision D6 (R130, log entry 11). -/
def Obligations.AddSetsCarry : Prop :=
  ∀ (s : State) (x y : Reg), encodedAs (.addVxVy x y) (0x8004 + x.val * 0x100 + y.val * 0x10) ∧
    ∃ t, exec (.addVxVy x y) s = .next t ∧
      (x ≠ 0xF → (t.reg x).toNat = ((s.reg x).toNat + (s.reg y).toNat) % 256) ∧
      (t.reg 0xF).toNat = (if (s.reg x).toNat + (s.reg y).toNat > 255 then 1 else 0) ∧
      advancesBy 2 s t ∧ unchangedBut [.PC, .reg x, .reg 0xF] s t

/-- SUB and SUBN: the difference mod 256, and VF 1 exactly when the minuend is strictly greater (R139, R141). That VF ends
holding the flag when it is the destination is the spec's decision D6 (R130, log entry 11). -/
def Obligations.SubtractionsSetStrictFlag : Prop :=
  ∀ (s : State) (x y : Reg),
    (encodedAs (.subVxVy x y) (0x8005 + x.val * 0x100 + y.val * 0x10) ∧ ∃ t, exec (.subVxVy x y) s = .next t ∧
      (x ≠ 0xF → (t.reg x).toNat = ((s.reg x).toNat + 256 - (s.reg y).toNat) % 256) ∧
      (t.reg 0xF).toNat = (if (s.reg x).toNat > (s.reg y).toNat then 1 else 0) ∧
      advancesBy 2 s t ∧ unchangedBut [.PC, .reg x, .reg 0xF] s t) ∧
    (encodedAs (.subnVxVy x y) (0x8007 + x.val * 0x100 + y.val * 0x10) ∧ ∃ t, exec (.subnVxVy x y) s = .next t ∧
      (x ≠ 0xF → (t.reg x).toNat = ((s.reg y).toNat + 256 - (s.reg x).toNat) % 256) ∧
      (t.reg 0xF).toNat = (if (s.reg y).toNat > (s.reg x).toNat then 1 else 0) ∧
      advancesBy 2 s t ∧ unchangedBut [.PC, .reg x, .reg 0xF] s t)

/-- SHR and SHL: Vx halved or doubled mod 256, VF the bit shifted out, and y is ignored (R140, R142). That y is ignored is
the spec's decision D5; that VF ends holding the bit when it is the destination is D6 (R130, log entry 11). -/
def Obligations.ShiftsMoveOneBit : Prop :=
  ∀ (s : State) (x y : Reg),
    (encodedAs (.shrVx x y) (0x8006 + x.val * 0x100 + y.val * 0x10) ∧ ∃ t, (∀ z, exec (.shrVx x z) s = .next t) ∧
      (x ≠ 0xF → (t.reg x).toNat = (s.reg x).toNat / 2) ∧ (t.reg 0xF).toNat = (s.reg x).toNat % 2 ∧
      advancesBy 2 s t ∧ unchangedBut [.PC, .reg x, .reg 0xF] s t) ∧
    (encodedAs (.shlVx x y) (0x800E + x.val * 0x100 + y.val * 0x10) ∧ ∃ t, (∀ z, exec (.shlVx x z) s = .next t) ∧
      (x ≠ 0xF → (t.reg x).toNat = (s.reg x).toNat * 2 % 256) ∧ (t.reg 0xF).toNat = (s.reg x).toNat / 128 ∧
      advancesBy 2 s t ∧ unchangedBut [.PC, .reg x, .reg 0xF] s t)

/-- RND: a fresh draw masked by the byte, whatever the draw is; each execution takes the next draw (R143). The counter of
draws is the model's own field (log entry 2). That a draw is free is the spec's decision D22. -/
def Obligations.RandomIsMaskedDraw : Prop :=
  ∀ (s : State) (x : Reg) (kk : Byte), encodedAs (.rnd x kk) (0xC000 + x.val * 0x100 + kk.toNat) ∧
    ∃ t, exec (.rnd x kk) s = .next t ∧
      (∀ k < 8, (t.reg x).getLsbD k = ((Config.randomByte s.draws).getLsbD k && kk.getLsbD k)) ∧
      (kk = 0x00 → t.reg x = 0x00) ∧ t.draws = s.draws + 1 ∧
      advancesBy 2 s t ∧ unchangedBut [.PC, .reg x, .draws] s t

/-! ### The index register and memory (spec/42_index_memory.md, spec/20_memory.md) -/

/-- LD I, ADD I and LD F: the address, the sum mod 65536 with no flag, and the glyph's address, which lies in the reserved
region (R170, R171, R172; the wrap without a flag is the spec's decision D9). -/
def Obligations.IndexIsComputed : Prop :=
  ∀ (s : State) (x : Reg) (nnn : Addr12),
    (encodedAs (.ldINnn nnn) (0xA000 + nnn.toNat) ∧ ∃ t, exec (.ldINnn nnn) s = .next t ∧
      t.I.toNat = nnn.toNat ∧ advancesBy 2 s t ∧ unchangedBut [.PC, .I] s t) ∧
    (encodedAs (.addIVx x) (0xF01E + x.val * 0x100) ∧ ∃ t, exec (.addIVx x) s = .next t ∧
      t.I.toNat = (s.I.toNat + (s.reg x).toNat) % 65536 ∧ advancesBy 2 s t ∧ unchangedBut [.PC, .I] s t) ∧
    (encodedAs (.ldFVx x) (0xF029 + x.val * 0x100) ∧ ∃ t, exec (.ldFVx x) s = .next t ∧
      t.I.toNat = Config.fontBase.val + 5 * ((s.reg x).toNat % 16) ∧ t.I.toNat + 5 ≤ 0x200 ∧
      advancesBy 2 s t ∧ unchangedBut [.PC, .I] s t)

/-- LD B: the three decimal digits of Vx at I, or the fault of its span; no other byte of memory changes (R173; the
reserved-region fault is the spec's decision D13). The record of a fault and its precision are D16 and log entry 4. -/
def Obligations.BcdStoresThreeDigits : Prop :=
  ∀ (s : State) (x : Reg), encodedAs (.ldBVx x) (0xF033 + x.val * 0x100) ∧
    (0xFFF < s.I.toNat + 2 → ∃ t, exec (.ldBVx x) s = .next t ∧
      faultsWith .memoryOutOfRange (some (BitVec.ofNat 16 (0xF033 + x.val * 0x100))) s t) ∧
    (s.I.toNat < 0x200 → ∃ t, exec (.ldBVx x) s = .next t ∧
      faultsWith .reservedWrite (some (BitVec.ofNat 16 (0xF033 + x.val * 0x100))) s t) ∧
    (0x200 ≤ s.I.toNat → s.I.toNat + 2 ≤ 0xFFF → ∃ t, exec (.ldBVx x) s = .next t ∧
      (t.mem.read s.I.toNat).toNat = (s.reg x).toNat / 100 ∧
      (t.mem.read (s.I.toNat + 1)).toNat = (s.reg x).toNat / 10 % 10 ∧
      (t.mem.read (s.I.toNat + 2)).toNat = (s.reg x).toNat % 10 ∧
      advancesBy 2 s t ∧ unchangedBut ([.PC] ++ bytesFromI s 3) s t)

/-- LD [I], Vx: V0 to Vx stored from I up, or the fault of its span; no other byte of memory changes, and I is unchanged
(R174; the spec's decisions D8 and D13). The record of a fault and its precision are D16 and log entry 4. -/
def Obligations.BlockStoreWritesRegisters : Prop :=
  ∀ (s : State) (x : Reg), encodedAs (.ldMemVx x) (0xF055 + x.val * 0x100) ∧
    (0xFFF < s.I.toNat + x.val → ∃ t, exec (.ldMemVx x) s = .next t ∧
      faultsWith .memoryOutOfRange (some (BitVec.ofNat 16 (0xF055 + x.val * 0x100))) s t) ∧
    (s.I.toNat < 0x200 → ∃ t, exec (.ldMemVx x) s = .next t ∧
      faultsWith .reservedWrite (some (BitVec.ofNat 16 (0xF055 + x.val * 0x100))) s t) ∧
    (0x200 ≤ s.I.toNat → s.I.toNat + x.val ≤ 0xFFF → ∃ t, exec (.ldMemVx x) s = .next t ∧
      (∀ k : Reg, k ≤ x → t.mem.read (s.I.toNat + k.val) = s.reg k) ∧
      advancesBy 2 s t ∧ unchangedBut ([.PC] ++ bytesFromI s (x.val + 1)) s t)

/-- LD Vx, [I]: V0 to Vx loaded from I up, from any region, or the fault of its span; no other register changes (R175; that
I is unchanged is the spec's decision D8). That the reserved region may be read is D37. The record of a fault and its
precision are D16 and log entry 4. -/
def Obligations.BlockLoadReadsRegisters : Prop :=
  ∀ (s : State) (x : Reg), encodedAs (.ldVxMem x) (0xF065 + x.val * 0x100) ∧
    (0xFFF < s.I.toNat + x.val → ∃ t, exec (.ldVxMem x) s = .next t ∧
      faultsWith .memoryOutOfRange (some (BitVec.ofNat 16 (0xF065 + x.val * 0x100))) s t) ∧
    (s.I.toNat + x.val ≤ 0xFFF → ∃ t, exec (.ldVxMem x) s = .next t ∧
      (∀ k : Reg, k ≤ x → t.reg k = s.mem.read (s.I.toNat + k.val)) ∧
      advancesBy 2 s t ∧ unchangedBut ([.PC] ++ regsThrough x) s t)

/-- A store is seen by every later fetch: a byte that a block store, a BCD store or a load of a ROM wrote is the high byte
of the word fetched at its address, and the low byte of the word fetched one address below (R62, the spec's decision D23).
-/
def Obligations.StoresAreSeenByFetch : Prop :=
  (∀ (s t u : State) (x : Reg), 0x200 ≤ s.I.toNat → s.I.toNat + x.val ≤ 0xFFF → exec (.ldMemVx x) s = .next t →
    u.mem = t.mem → ∀ k : Reg, k ≤ x → u.fetchSees (s.I.toNat + k.val) (s.reg k).toNat) ∧
  (∀ (s t u : State) (x : Reg), 0x200 ≤ s.I.toNat → s.I.toNat + 2 ≤ 0xFFF → exec (.ldBVx x) s = .next t →
    u.mem = t.mem → u.fetchSees s.I.toNat ((s.reg x).toNat / 100) ∧
      u.fetchSees (s.I.toNat + 1) ((s.reg x).toNat / 10 % 10) ∧ u.fetchSees (s.I.toNat + 2) ((s.reg x).toNat % 10)) ∧
  (∀ (s u : State) (bytes : List Byte), bytes.length ≤ 3584 → u.mem = (s.load bytes).2.mem →
    ∀ (k : Nat) (hk : k < bytes.length), u.fetchSees (0x200 + k) bytes[k].toNat)

/-! ### The display (spec/43_display.md) -/

/-- CLS: every pixel off, redraw raised, VF not written (R200). -/
def Obligations.ClearTurnsEveryPixelOff : Prop :=
  encodedAs .cls 0x00E0 ∧ ∀ s : State, ∃ t, exec .cls s = .next t ∧
    (∀ r c, t.fb.pixel r c = false) ∧ t.redraw = true ∧ advancesBy 2 s t ∧
    unchangedBut [.PC, .display, .redraw] s t

/-- DRW: each pixel is inverted exactly where a set sprite bit falls on it, with both axes wrapping; VF is 1 exactly when
one of them was on; redraw is raised; a sprite past the top of memory faults before VF is reset (R201; the bit order and the
reading of the coordinates before VF is reset are the spec's decisions D3 and D15). The record of a fault and its precision
are D16 and log entry 4. -/
def Obligations.DrawInvertsAndDetectsCollision : Prop :=
  ∀ (s : State) (x y : Reg) (n : Nibble), encodedAs (.drw x y n) (0xD000 + x.val * 0x100 + y.val * 0x10 + n.toNat) ∧
    (1 ≤ n.toNat → 0xFFF < s.I.toNat + n.toNat - 1 → ∃ t, exec (.drw x y n) s = .next t ∧
      faultsWith .memoryOutOfRange (some (BitVec.ofNat 16 (0xD000 + x.val * 0x100 + y.val * 0x10 + n.toNat))) s t) ∧
    (n.toNat = 0 ∨ s.I.toNat + n.toNat - 1 ≤ 0xFFF → ∃ t, exec (.drw x y n) s = .next t ∧
      (∀ r c, s.spriteSets x y n r c → t.fb.pixel r c = !s.fb.pixel r c) ∧
      (∀ r c, ¬ s.spriteSets x y n r c → t.fb.pixel r c = s.fb.pixel r c) ∧
      ((∃ r c, s.spriteSets x y n r c ∧ s.fb.pixel r c = true) → t.reg 0xF = 1) ∧
      ((∀ r c, s.spriteSets x y n r c → s.fb.pixel r c = false) → t.reg 0xF = 0) ∧
      t.redraw = true ∧ advancesBy 2 s t ∧ unchangedBut [.PC, .reg 0xF, .display, .redraw] s t)

/-- Drawing is self-inverse: a second draw with the same coordinates restores every pixel. Its VF is 1 exactly when a set
sprite bit fell on a pixel that was off before the first draw; so, after a first draw without collision, exactly when the
sprite has a set bit (R202 says so of every second draw, against R201: log entry 12). And at column 63, row 31, the row 0xFF
falls on columns 63 and 0 to 6 of row 31 (R202). Which pixels a sprite falls on rests on the spec's decisions D3 (the bit
order) and, when x or y is F, D15 (R201, log entry 11). -/
def Obligations.DrawingTwiceRestores : Prop :=
  (∀ (s t u : State) (x y : Reg) (n : Nibble), n.toNat = 0 ∨ s.I.toNat + n.toNat - 1 ≤ 0xFFF →
    exec (.drw x y n) s = .next t → t.reg x = s.reg x → t.reg y = s.reg y → exec (.drw x y n) t = .next u →
    (∀ r c, u.fb.pixel r c = s.fb.pixel r c) ∧
    (u.reg 0xF = 1 ↔ ∃ r c, s.spriteSets x y n r c ∧ s.fb.pixel r c = false) ∧
    (t.reg 0xF = 0 → (u.reg 0xF = 1 ↔ ∃ k < n.toNat, s.mem.read (s.I.toNat + k) ≠ 0x00))) ∧
  (∀ (s t : State) (x y : Reg), s.I.toNat ≤ 0xFFF → s.reg x = 63 → s.reg y = 31 → s.mem.read s.I.toNat = 0xFF →
    exec (.drw x y 1) s = .next t →
    ∀ r c, t.fb.pixel r c ≠ s.fb.pixel r c ↔ r = 31 ∧ (c = 63 ∨ c.val ≤ 6))

/-! ### The keypad, the key-wait and the timers (spec/44_keypad_timers.md) -/

/-- SKP and SKNP: a skip on the bit of key Vx; a number above 0xF faults (R220, R221; that fault is the spec's decision
D14). The record of a fault and its precision are D16 and log entry 4. -/
def Obligations.KeySkipsTestTheKeypad : Prop :=
  ∀ (s : State) (x : Reg),
    (encodedAs (.skp x) (0xE09E + x.val * 0x100) ∧
      ((s.reg x).toNat ≤ 0xF → ∃ t, exec (.skp x) s = .next t ∧
        advancesBy (if s.keypad.getLsbD (s.reg x).toNat then 4 else 2) s t ∧ unchangedBut [.PC] s t) ∧
      (0xF < (s.reg x).toNat → ∃ t, exec (.skp x) s = .next t ∧
        faultsWith .keyOutOfRange (some (BitVec.ofNat 16 (0xE09E + x.val * 0x100))) s t)) ∧
    (encodedAs (.sknp x) (0xE0A1 + x.val * 0x100) ∧
      ((s.reg x).toNat ≤ 0xF → ∃ t, exec (.sknp x) s = .next t ∧
        advancesBy (if s.keypad.getLsbD (s.reg x).toNat then 2 else 4) s t ∧ unchangedBut [.PC] s t) ∧
      (0xF < (s.reg x).toNat → ∃ t, exec (.sknp x) s = .next t ∧
        faultsWith .keyOutOfRange (some (BitVec.ofNat 16 (0xE0A1 + x.val * 0x100))) s t))

/-- LD Vx, DT; LD DT, Vx; LD ST, Vx (R222, R224, R225). -/
def Obligations.TimerTransfers : Prop :=
  ∀ (s : State) (x : Reg),
    (encodedAs (.ldVxDt x) (0xF007 + x.val * 0x100) ∧ ∃ t, exec (.ldVxDt x) s = .next t ∧
      t.reg x = s.DT ∧ advancesBy 2 s t ∧ unchangedBut [.PC, .reg x] s t) ∧
    (encodedAs (.ldDtVx x) (0xF015 + x.val * 0x100) ∧ ∃ t, exec (.ldDtVx x) s = .next t ∧
      t.DT = s.reg x ∧ advancesBy 2 s t ∧ unchangedBut [.PC, .DT] s t) ∧
    (encodedAs (.ldStVx x) (0xF018 + x.val * 0x100) ∧ ∃ t, exec (.ldStVx x) s = .next t ∧
      t.ST = s.reg x ∧ advancesBy 2 s t ∧ unchangedBut [.PC, .ST] s t)

/-- LD Vx, K: the core waits for a key for Vx; PC is already past the instruction, Vx is not written, and a key already held
does not end the wait (R223; the spec's decision D19). -/
def Obligations.KeyWaitBegins : Prop :=
  ∀ (s : State) (x : Reg), encodedAs (.ldVxK x) (0xF00A + x.val * 0x100) ∧
    ∃ t, exec (.ldVxK x) s = .next t ∧ t.wait = .waitingForKey x ∧ advancesBy 2 s t ∧ unchangedBut [.PC, .wait] s t

/-- A wait stalls the core, however often it is stepped, until a press; the press writes the waiting register with the key,
sets the key's bit and nothing else, and a release never ends the wait (R226, R227; that any press ends it is the spec's
decision D19). -/
def Obligations.KeyWaitEndsOnlyByPress : Prop :=
  ∀ (s : State) (r : Reg) (k : Fin 16), s.wait = .waitingForKey r →
    (∀ n : Nat, core.run n s = .next s) ∧
    (s.setKey k).wait = .running ∧ ((s.setKey k).reg r).toNat = k.val ∧
    (∀ j : Fin 16, (s.setKey k).keyHeld j = (decide (j = k) || s.keyHeld j)) ∧
    unchangedBut [.reg r, .wait, .keypad] s (s.setKey k) ∧
    (s.releaseKey k).wait = .waitingForKey r ∧ s.tickTimers.wait = .waitingForKey r

/-! ### The host's operations (spec/60_exceptions.md) -/

/-- A press while the core runs, halted or not, sets the key's bit and nothing else (R227, R322). That it acts on a halted
core is the spec's decision D32. -/
def Obligations.PressWhileRunningSetsOnlyTheKey : Prop :=
  ∀ (s : State) (k : Fin 16), s.wait = .running →
    (∀ j : Fin 16, (s.setKey k).keyHeld j = (decide (j = k) || s.keyHeld j)) ∧ unchangedBut [.keypad] s (s.setKey k)

/-- A release clears the key's bit and nothing else; releasing a key that is up is a no-op; an acknowledge clears redraw and
nothing else (R323, R325; the acknowledge is the spec's decision D38). -/
def Obligations.ReleaseAndAcknowledge : Prop :=
  ∀ (s : State) (k : Fin 16),
    (∀ j : Fin 16, (s.releaseKey k).keyHeld j = (!decide (j = k) && s.keyHeld j)) ∧
    unchangedBut [.keypad] s (s.releaseKey k) ∧ (s.keyHeld k = false → s.releaseKey k = s) ∧
    s.ackRedraw.redraw = false ∧ unchangedBut [.redraw] s s.ackRedraw

/-- Ticks in any state: after `n` of them each timer is `n` lower, or 0, and nothing else has changed (R310; in every state:
the spec's decision D33). -/
def Obligations.TicksCountDown : Prop :=
  ∀ (s t : State) (n : Nat), runEvents (List.replicate n .tickTimers) s = .next t →
    t.DT.toNat = s.DT.toNat - n ∧ t.ST.toNat = s.ST.toNat - n ∧ unchangedBut [.DT, .ST] s t

/-- A timer never counts up but by Fx15 or Fx18, which give it the value of Vx (R311). -/
def Obligations.TimersCountUpOnlyByTheirLoads : Prop :=
  ∀ (e : Event) (s t : State), applyEvent e s = .next t →
    (s.DT.toNat < t.DT.toNat → e = .step ∧ ∃ x, s.decodesTo (.ldDtVx x) ∧ t.DT = s.reg x) ∧
    (s.ST.toNat < t.ST.toNat → e = .step ∧ ∃ x, s.decodesTo (.ldStVx x) ∧ t.ST = s.reg x)

/-- Loading a ROM: its bytes from 0x200 up and nothing else; more than 3584 bytes are rejected with no byte written (R321;
at any time: the spec's decision D27). -/
def Obligations.LoadWritesTheRom : Prop :=
  ∀ (s : State) (bytes : List Byte),
    (3584 < bytes.length → s.load bytes = (.rejected, s)) ∧
    (bytes.length ≤ 3584 → (s.load bytes).1 = .ok ∧
      (∀ (k : Nat) (hk : k < bytes.length), (s.load bytes).2.mem.read (0x200 + k) = bytes[k]) ∧
      unchangedBut ((List.range bytes.length).map fun k => .byte (0x200 + k)) s (s.load bytes).2)
end

