-- ==== Sys2Proof/Laws/State.lean ====
section
/-! SUPPORT. What each update of the state leaves in each field. -/

namespace Sys2Proof.Machine

variable (s : State)

/-! ### `V[r] <- v` -/

@[simp] theorem State.setReg_V (r : Reg) (v : Byte) : (s.setReg r v).V = s.V.set r v := rfl
@[simp] theorem State.setReg_I (r : Reg) (v : Byte) : (s.setReg r v).I = s.I := rfl
@[simp] theorem State.setReg_PC (r : Reg) (v : Byte) : (s.setReg r v).PC = s.PC := rfl
@[simp] theorem State.setReg_SP (r : Reg) (v : Byte) : (s.setReg r v).SP = s.SP := rfl
@[simp] theorem State.setReg_stack (r : Reg) (v : Byte) : (s.setReg r v).stack = s.stack := rfl
@[simp] theorem State.setReg_DT (r : Reg) (v : Byte) : (s.setReg r v).DT = s.DT := rfl
@[simp] theorem State.setReg_ST (r : Reg) (v : Byte) : (s.setReg r v).ST = s.ST := rfl
@[simp] theorem State.setReg_mem (r : Reg) (v : Byte) : (s.setReg r v).mem = s.mem := rfl
@[simp] theorem State.setReg_keypad (r : Reg) (v : Byte) : (s.setReg r v).keypad = s.keypad := rfl
@[simp] theorem State.setReg_fb (r : Reg) (v : Byte) : (s.setReg r v).fb = s.fb := rfl
@[simp] theorem State.setReg_redraw (r : Reg) (v : Byte) : (s.setReg r v).redraw = s.redraw := rfl
@[simp] theorem State.setReg_wait (r : Reg) (v : Byte) : (s.setReg r v).wait = s.wait := rfl
@[simp] theorem State.setReg_halt (r : Reg) (v : Byte) : (s.setReg r v).halt = s.halt := rfl
@[simp] theorem State.setReg_draws (r : Reg) (v : Byte) : (s.setReg r v).draws = s.draws := rfl

/-! ### `V[F] <- v` -/

@[simp] theorem State.setFlag_V (v : Byte) : (s.setFlag v).V = s.V.set (0xF : Reg) v := rfl
@[simp] theorem State.setFlag_I (v : Byte) : (s.setFlag v).I = s.I := rfl
@[simp] theorem State.setFlag_PC (v : Byte) : (s.setFlag v).PC = s.PC := rfl
@[simp] theorem State.setFlag_SP (v : Byte) : (s.setFlag v).SP = s.SP := rfl
@[simp] theorem State.setFlag_stack (v : Byte) : (s.setFlag v).stack = s.stack := rfl
@[simp] theorem State.setFlag_DT (v : Byte) : (s.setFlag v).DT = s.DT := rfl
@[simp] theorem State.setFlag_ST (v : Byte) : (s.setFlag v).ST = s.ST := rfl
@[simp] theorem State.setFlag_mem (v : Byte) : (s.setFlag v).mem = s.mem := rfl
@[simp] theorem State.setFlag_keypad (v : Byte) : (s.setFlag v).keypad = s.keypad := rfl
@[simp] theorem State.setFlag_fb (v : Byte) : (s.setFlag v).fb = s.fb := rfl
@[simp] theorem State.setFlag_redraw (v : Byte) : (s.setFlag v).redraw = s.redraw := rfl
@[simp] theorem State.setFlag_wait (v : Byte) : (s.setFlag v).wait = s.wait := rfl
@[simp] theorem State.setFlag_halt (v : Byte) : (s.setFlag v).halt = s.halt := rfl
@[simp] theorem State.setFlag_draws (v : Byte) : (s.setFlag v).draws = s.draws := rfl

/-! ### The block load -/

@[simp] theorem State.loadRegs_I (x : Reg) (a : Nat) : (s.loadRegs x a).I = s.I := rfl
@[simp] theorem State.loadRegs_PC (x : Reg) (a : Nat) : (s.loadRegs x a).PC = s.PC := rfl
@[simp] theorem State.loadRegs_SP (x : Reg) (a : Nat) : (s.loadRegs x a).SP = s.SP := rfl
@[simp] theorem State.loadRegs_stack (x : Reg) (a : Nat) : (s.loadRegs x a).stack = s.stack := rfl
@[simp] theorem State.loadRegs_DT (x : Reg) (a : Nat) : (s.loadRegs x a).DT = s.DT := rfl
@[simp] theorem State.loadRegs_ST (x : Reg) (a : Nat) : (s.loadRegs x a).ST = s.ST := rfl
@[simp] theorem State.loadRegs_mem (x : Reg) (a : Nat) : (s.loadRegs x a).mem = s.mem := rfl
@[simp] theorem State.loadRegs_keypad (x : Reg) (a : Nat) : (s.loadRegs x a).keypad = s.keypad := rfl
@[simp] theorem State.loadRegs_fb (x : Reg) (a : Nat) : (s.loadRegs x a).fb = s.fb := rfl
@[simp] theorem State.loadRegs_redraw (x : Reg) (a : Nat) : (s.loadRegs x a).redraw = s.redraw := rfl
@[simp] theorem State.loadRegs_wait (x : Reg) (a : Nat) : (s.loadRegs x a).wait = s.wait := rfl
@[simp] theorem State.loadRegs_halt (x : Reg) (a : Nat) : (s.loadRegs x a).halt = s.halt := rfl
@[simp] theorem State.loadRegs_draws (x : Reg) (a : Nat) : (s.loadRegs x a).draws = s.draws := rfl

/-! ### `PC <- next` -/

@[simp] theorem State.advance_V : (s.advance).V = s.V := rfl
@[simp] theorem State.advance_I : (s.advance).I = s.I := rfl
@[simp] theorem State.advance_PC : (s.advance).PC = s.next := rfl
@[simp] theorem State.advance_SP : (s.advance).SP = s.SP := rfl
@[simp] theorem State.advance_stack : (s.advance).stack = s.stack := rfl
@[simp] theorem State.advance_DT : (s.advance).DT = s.DT := rfl
@[simp] theorem State.advance_ST : (s.advance).ST = s.ST := rfl
@[simp] theorem State.advance_mem : (s.advance).mem = s.mem := rfl
@[simp] theorem State.advance_keypad : (s.advance).keypad = s.keypad := rfl
@[simp] theorem State.advance_fb : (s.advance).fb = s.fb := rfl
@[simp] theorem State.advance_redraw : (s.advance).redraw = s.redraw := rfl
@[simp] theorem State.advance_wait : (s.advance).wait = s.wait := rfl
@[simp] theorem State.advance_halt : (s.advance).halt = s.halt := rfl
@[simp] theorem State.advance_draws : (s.advance).draws = s.draws := rfl

/-! ### `PC <- target` -/

@[simp] theorem State.jump_V (target : Word) : (s.jump target).V = s.V := rfl
@[simp] theorem State.jump_I (target : Word) : (s.jump target).I = s.I := rfl
@[simp] theorem State.jump_PC (target : Word) : (s.jump target).PC = target := rfl
@[simp] theorem State.jump_SP (target : Word) : (s.jump target).SP = s.SP := rfl
@[simp] theorem State.jump_stack (target : Word) : (s.jump target).stack = s.stack := rfl
@[simp] theorem State.jump_DT (target : Word) : (s.jump target).DT = s.DT := rfl
@[simp] theorem State.jump_ST (target : Word) : (s.jump target).ST = s.ST := rfl
@[simp] theorem State.jump_mem (target : Word) : (s.jump target).mem = s.mem := rfl
@[simp] theorem State.jump_keypad (target : Word) : (s.jump target).keypad = s.keypad := rfl
@[simp] theorem State.jump_fb (target : Word) : (s.jump target).fb = s.fb := rfl
@[simp] theorem State.jump_redraw (target : Word) : (s.jump target).redraw = s.redraw := rfl
@[simp] theorem State.jump_wait (target : Word) : (s.jump target).wait = s.wait := rfl
@[simp] theorem State.jump_halt (target : Word) : (s.jump target).halt = s.halt := rfl
@[simp] theorem State.jump_draws (target : Word) : (s.jump target).draws = s.draws := rfl

/-! ### A skip -/

@[simp] theorem State.skipIf_V (taken : Bool) : (s.skipIf taken).V = s.V := rfl
@[simp] theorem State.skipIf_I (taken : Bool) : (s.skipIf taken).I = s.I := rfl
@[simp] theorem State.skipIf_PC (taken : Bool) : (s.skipIf taken).PC = if taken then s.next + 2 else s.next := rfl
@[simp] theorem State.skipIf_SP (taken : Bool) : (s.skipIf taken).SP = s.SP := rfl
@[simp] theorem State.skipIf_stack (taken : Bool) : (s.skipIf taken).stack = s.stack := rfl
@[simp] theorem State.skipIf_DT (taken : Bool) : (s.skipIf taken).DT = s.DT := rfl
@[simp] theorem State.skipIf_ST (taken : Bool) : (s.skipIf taken).ST = s.ST := rfl
@[simp] theorem State.skipIf_mem (taken : Bool) : (s.skipIf taken).mem = s.mem := rfl
@[simp] theorem State.skipIf_keypad (taken : Bool) : (s.skipIf taken).keypad = s.keypad := rfl
@[simp] theorem State.skipIf_fb (taken : Bool) : (s.skipIf taken).fb = s.fb := rfl
@[simp] theorem State.skipIf_redraw (taken : Bool) : (s.skipIf taken).redraw = s.redraw := rfl
@[simp] theorem State.skipIf_wait (taken : Bool) : (s.skipIf taken).wait = s.wait := rfl
@[simp] theorem State.skipIf_halt (taken : Bool) : (s.skipIf taken).halt = s.halt := rfl
@[simp] theorem State.skipIf_draws (taken : Bool) : (s.skipIf taken).draws = s.draws := rfl

/-! ### Taking a fault -/

@[simp] theorem State.takeFault_V (c : FaultCause) (o : Option Word) : (s.takeFault c o).V = s.V := rfl
@[simp] theorem State.takeFault_I (c : FaultCause) (o : Option Word) : (s.takeFault c o).I = s.I := rfl
@[simp] theorem State.takeFault_PC (c : FaultCause) (o : Option Word) : (s.takeFault c o).PC = s.PC := rfl
@[simp] theorem State.takeFault_SP (c : FaultCause) (o : Option Word) : (s.takeFault c o).SP = s.SP := rfl
@[simp] theorem State.takeFault_stack (c : FaultCause) (o : Option Word) : (s.takeFault c o).stack = s.stack := rfl
@[simp] theorem State.takeFault_DT (c : FaultCause) (o : Option Word) : (s.takeFault c o).DT = s.DT := rfl
@[simp] theorem State.takeFault_ST (c : FaultCause) (o : Option Word) : (s.takeFault c o).ST = s.ST := rfl
@[simp] theorem State.takeFault_mem (c : FaultCause) (o : Option Word) : (s.takeFault c o).mem = s.mem := rfl
@[simp] theorem State.takeFault_keypad (c : FaultCause) (o : Option Word) : (s.takeFault c o).keypad = s.keypad := rfl
@[simp] theorem State.takeFault_fb (c : FaultCause) (o : Option Word) : (s.takeFault c o).fb = s.fb := rfl
@[simp] theorem State.takeFault_redraw (c : FaultCause) (o : Option Word) : (s.takeFault c o).redraw = s.redraw := rfl
@[simp] theorem State.takeFault_wait (c : FaultCause) (o : Option Word) : (s.takeFault c o).wait = s.wait := rfl
@[simp] theorem State.takeFault_halt (c : FaultCause) (o : Option Word) : (s.takeFault c o).halt = some ⟨c, s.PC, o⟩ := rfl
@[simp] theorem State.takeFault_draws (c : FaultCause) (o : Option Word) : (s.takeFault c o).draws = s.draws := rfl

/-! ### A fault of an instruction -/

@[simp] theorem State.raise_V (c : FaultCause) (i : Instr) : (s.raise c i).V = s.V := rfl
@[simp] theorem State.raise_I (c : FaultCause) (i : Instr) : (s.raise c i).I = s.I := rfl
@[simp] theorem State.raise_PC (c : FaultCause) (i : Instr) : (s.raise c i).PC = s.PC := rfl
@[simp] theorem State.raise_SP (c : FaultCause) (i : Instr) : (s.raise c i).SP = s.SP := rfl
@[simp] theorem State.raise_stack (c : FaultCause) (i : Instr) : (s.raise c i).stack = s.stack := rfl
@[simp] theorem State.raise_DT (c : FaultCause) (i : Instr) : (s.raise c i).DT = s.DT := rfl
@[simp] theorem State.raise_ST (c : FaultCause) (i : Instr) : (s.raise c i).ST = s.ST := rfl
@[simp] theorem State.raise_mem (c : FaultCause) (i : Instr) : (s.raise c i).mem = s.mem := rfl
@[simp] theorem State.raise_keypad (c : FaultCause) (i : Instr) : (s.raise c i).keypad = s.keypad := rfl
@[simp] theorem State.raise_fb (c : FaultCause) (i : Instr) : (s.raise c i).fb = s.fb := rfl
@[simp] theorem State.raise_redraw (c : FaultCause) (i : Instr) : (s.raise c i).redraw = s.redraw := rfl
@[simp] theorem State.raise_wait (c : FaultCause) (i : Instr) : (s.raise c i).wait = s.wait := rfl
@[simp] theorem State.raise_halt (c : FaultCause) (i : Instr) : (s.raise c i).halt = some ⟨c, s.PC, some (encode i)⟩ := rfl
@[simp] theorem State.raise_draws (c : FaultCause) (i : Instr) : (s.raise c i).draws = s.draws := rfl

end Sys2Proof.Machine
end

