-- ==== Sys2Proof/Laws/Ops.lean ====
section
/-! SUPPORT. One lemma for each shared operation: everything it can do. -/

namespace Sys2Proof.Machine

/-! ### Registers -/

/-- A register after a write of one. -/
@[simp] theorem State.reg_setReg (s : State) (r q : Reg) (v : Byte) :
    (s.setReg r v).reg q = if q = r then v else s.reg q := by
  simp only [State.reg, State.setReg, Fin.getElem_fin, Vector.getElem_set, Fin.val_inj, eq_comm]

/-- A register after a write of the flag. -/
@[simp] theorem State.reg_setFlag (s : State) (q : Reg) (v : Byte) :
    (s.setFlag v).reg q = if q = 0xF then v else s.reg q := s.reg_setReg 0xF q v

/-- A register after the block load. -/
@[simp] theorem State.reg_loadRegs (s : State) (x q : Reg) (a : Nat) :
    (s.loadRegs x a).reg q = if q ≤ x then s.mem.read (a + q) else s.reg q := by
  simp [State.reg, State.loadRegs]

@[simp] theorem State.reg_advance (s : State) (q : Reg) : s.advance.reg q = s.reg q := rfl
@[simp] theorem State.reg_jump (s : State) (target : Word) (q : Reg) : (s.jump target).reg q = s.reg q := rfl
@[simp] theorem State.reg_skipIf (s : State) (taken : Bool) (q : Reg) : (s.skipIf taken).reg q = s.reg q := rfl
@[simp] theorem State.reg_takeFault (s : State) (c : FaultCause) (o : Option Word) (q : Reg) :
    (s.takeFault c o).reg q = s.reg q := rfl
@[simp] theorem State.reg_raise (s : State) (c : FaultCause) (i : Instr) (q : Reg) :
    (s.raise c i).reg q = s.reg q := rfl

/-- V0 to Vx are x + 1 registers. -/
@[simp] theorem State.length_regsUpTo (s : State) (x : Reg) : (s.regsUpTo x).length = x + 1 := by
  simp [State.regsUpTo]

/-- The k-th of V0 to Vx is Vk. -/
@[simp] theorem State.getElem_regsUpTo (s : State) (x : Reg) (k : Nat) (h : k < (s.regsUpTo x).length) :
    (s.regsUpTo x)[k] = s.reg ⟨k, by simp at h; omega⟩ := by
  simp [State.regsUpTo, State.reg]

/-! ### The call stack -/

/-- A push answers exactly when fewer than 16 frames are held; it writes the entry at SP and moves SP up. -/
theorem State.push_eq_some (s t : State) (v : Word) :
    s.push v = some t ↔ ∃ _ : s.SP.val < 16,
      t = { s with stack := s.stack.set s.SP.val v, SP := ⟨s.SP.val + 1, by omega⟩ } := by
  unfold State.push
  split
  · simp_all [eq_comm]
  · simp_all

/-- A push fails exactly when 16 frames are held. -/
theorem State.push_eq_none (s : State) (v : Word) : s.push v = none ↔ s.SP = 16 := by
  unfold State.push
  split
  · simp only [reduceCtorEq, false_iff]
    rintro h
    simp [h] at *
  · simp only [true_iff]
    exact Fin.ext (by simp; omega)

/-- A pop answers exactly when a frame is held; it gives the entry below SP and moves SP down. -/
theorem State.pop_eq_some (s t : State) (v : Word) :
    s.pop = some (v, t) ↔ ∃ _ : s.SP.val ≠ 0,
      v = s.stack[s.SP.val - 1]'(by omega) ∧ t = { s with SP := ⟨s.SP.val - 1, by omega⟩ } := by
  unfold State.pop
  split
  · rename_i h
    exact ⟨fun h' => by simp at h', fun ⟨h', _⟩ => absurd h h'⟩
  · rename_i h
    simp only [Option.some.injEq, Prod.mk.injEq]
    exact ⟨fun ⟨hv, ht⟩ => ⟨h, hv.symm, ht.symm⟩, fun ⟨_, hv, ht⟩ => ⟨hv.symm, ht.symm⟩⟩

/-- A pop fails exactly when no frame is held. -/
theorem State.pop_eq_none (s : State) : s.pop = none ↔ s.SP = 0 := by
  unfold State.pop
  split
  · rename_i h
    exact ⟨fun _ => Fin.ext h, fun _ => rfl⟩
  · rename_i h
    exact ⟨fun h' => by simp at h', fun h' => absurd (congrArg Fin.val h') h⟩

/-! ### Operands and flags -/

/-- A key number is the byte's value, when that is at most 0xF. -/
theorem keyOperand_eq_some (v : Byte) (k : Fin 16) : keyOperand v = some k ↔ v.toNat = k.val := by
  unfold keyOperand
  split
  · simp [Fin.ext_iff]
  · simp only [reduceCtorEq, false_iff]
    omega

/-- A byte is no key number exactly when it is above 0xF. -/
theorem keyOperand_eq_none (v : Byte) : keyOperand v = none ↔ 0xF < v.toNat := by
  unfold keyOperand
  split
  · simp only [reduceCtorEq, false_iff]
    omega
  · simp only [true_iff]
    omega

/-- A flag is 1 or 0. -/
@[simp] theorem flagByte_toNat (b : Bool) : (flagByte b).toNat = if b then 1 else 0 := by
  cases b <;> rfl

@[simp] theorem addrOperand_toNat (nnn : Addr12) : (addrOperand nnn).toNat = nnn.toNat := by
  simp [addrOperand]
  omega

@[simp] theorem State.offsetOperand_toNat (s : State) (r : Reg) : (s.offsetOperand r).toNat = (s.reg r).toNat := by
  simp [State.offsetOperand]
  omega

/-- An access passes the top of memory exactly when its last byte lies above 0xFFF (R54). -/
theorem State.spanPassesTop_iff (s : State) (k : Nat) : s.spanPassesTop k = true ↔ 0xFFF < s.I.toNat + k :=
  decide_eq_true_iff

/-- An access reaches the reserved region exactly when I is below 0x200 (R53). -/
theorem State.spanInReserved_iff (s : State) : s.spanInReserved = true ↔ s.I.toNat < 0x200 :=
  decide_eq_true_iff

/-- The bytes of a sprite are the bytes from I up. -/
theorem State.length_spriteBytes (s : State) (n : Nibble) : (s.spriteBytes n).length = n.toNat :=
  Memory.length_readBytes s.mem (s.dataAddr 0) n.toNat

/-- A byte has three decimal digits. -/
@[simp] theorem length_bcdDigits (v : Byte) : (bcdDigits v).length = 3 := rfl

/-! ### The display -/

/-- A pixel after a write of one. -/
@[simp] theorem Framebuffer.pixel_setPixel (fb : Framebuffer) (r q : Fin 32) (c d : Fin 64) (v : Bool) :
    Framebuffer.pixel (fb.setPixel r c v) q d = if q = r ∧ d = c then v else Framebuffer.pixel fb q d := by
  simp only [Framebuffer.pixel, Framebuffer.setPixel, Fin.getElem_fin, Vector.getElem_set]
  by_cases hr : q = r
  · subst hr
    by_cases hc : d = c
    · subst hc; simp
    · simp [hc, Fin.val_inj, Ne.symm hc]
  · simp [hr, Fin.val_inj, Ne.symm hr]

/-- Every pixel of the clear display is off. -/
@[simp] theorem Framebuffer.pixel_blank (r : Fin 32) (c : Fin 64) : Framebuffer.blank.pixel r c = false := by
  simp [Framebuffer.pixel, Framebuffer.blank]

/-- Displays with the same pixels are the same. -/
theorem Framebuffer.ext_pixel {f g : Framebuffer} (h : ∀ r c, Framebuffer.pixel f r c = Framebuffer.pixel g r c) :
    f = g := by
  apply Vector.ext
  intro r hr
  apply Vector.ext
  intro c hc
  exact h ⟨r, hr⟩ ⟨c, hc⟩

/-- Whether a set bit of sprite row `b`, drawn at row `y` from column `x`, among its first `n` columns falls on pixel
`(r, c)`. -/
def rowCovers (x y : Nat) (b : Byte) (n : Nat) (r : Fin 32) (c : Fin 64) : Prop :=
  ∃ k < n, spriteBit b k = true ∧ y % 32 = r.val ∧ (x + k) % 64 = c.val

/-- Whether a set bit of the sprite rows, drawn from row `y` and column `x`, falls on pixel `(r, c)` (R201). -/
def spriteCovers (x y : Nat) (rows : List Byte) (r : Fin 32) (c : Fin 64) : Prop :=
  ∃ j, ∃ h : j < rows.length, rowCovers x (y + j) rows[j] 8 r c

theorem foldl_drawBit (x y : Nat) (b : Byte) (d : Drawing) (n : Nat) (hn : n ≤ 8) :
    (∀ r c, (((List.range n).foldl (drawBit x y b) d).1.pixel r c = true ↔
      (d.1.pixel r c = true ↔ ¬ rowCovers x y b n r c))) ∧
    (((List.range n).foldl (drawBit x y b) d).2 = true ↔
      d.2 = true ∨ ∃ r c, rowCovers x y b n r c ∧ d.1.pixel r c = true) := by
  induction n with
  | zero => simp [rowCovers]
  | succ n ih =>
    obtain ⟨ihp, ihc⟩ := ih (by omega)
    rw [List.range_succ, List.foldl_append]
    generalize (List.range n).foldl (drawBit x y b) d = e at ihp ihc
    simp only [List.foldl_cons, List.foldl_nil]
    have hcov : ∀ (r : Fin 32) (c : Fin 64), rowCovers x y b (n + 1) r c ↔
        rowCovers x y b n r c ∨ (spriteBit b n = true ∧ r = Fin.ofNat 32 y ∧ c = Fin.ofNat 64 (x + n)) := by
      intro r c
      simp only [rowCovers, Fin.ext_iff, Fin.val_ofNat]
      constructor
      · rintro ⟨k, hk, hs, hy, hx⟩
        rcases Nat.lt_succ_iff_lt_or_eq.1 hk with hk | rfl
        · exact .inl ⟨k, hk, hs, hy, hx⟩
        · exact .inr ⟨hs, hy.symm, hx.symm⟩
      · rintro (⟨k, hk, hs, hy, hx⟩ | ⟨hs, hy, hx⟩)
        · exact ⟨k, by omega, hs, hy, hx⟩
        · exact ⟨n, by omega, hs, hy.symm, hx.symm⟩
    have hfresh : ¬ rowCovers x y b n (Fin.ofNat 32 y) (Fin.ofNat 64 (x + n)) := by
      rintro ⟨k, hk, -, -, hx⟩
      simp only [Fin.val_ofNat] at hx
      omega
    constructor
    · intro r c
      rw [hcov]
      simp only [drawBit, Framebuffer.pixel_setPixel]
      by_cases hat : r = Fin.ofNat 32 y ∧ c = Fin.ofNat 64 (x + n)
      · obtain ⟨rfl, rfl⟩ := hat
        have hold : e.1.pixel (Fin.ofNat 32 y) (Fin.ofNat 64 (x + n)) = d.1.pixel (Fin.ofNat 32 y) (Fin.ofNat 64 (x + n)) :=
          Bool.eq_iff_iff.2 ((ihp _ _).trans ⟨fun h => h.2 hfresh, fun h => ⟨fun _ => hfresh, fun _ => h⟩⟩)
        rw [if_pos ⟨rfl, rfl⟩, hold]
        generalize d.1.pixel (Fin.ofNat 32 y) (Fin.ofNat 64 (x + n)) = old
        simp only [hfresh, false_or, and_true]
        cases spriteBit b n <;> cases old <;> simp
      · rw [if_neg hat, ihp]
        have hout : ¬ (spriteBit b n = true ∧ r = Fin.ofNat 32 y ∧ c = Fin.ofNat 64 (x + n)) := fun h => hat h.2
        simp only [hout, or_false]
    · simp only [drawBit, Bool.or_eq_true, ihc, Bool.and_eq_true]
      have := ihp (Fin.ofNat 32 y) (Fin.ofNat 64 (x + n))
      constructor
      · rintro ((h | ⟨r, c, h, hp⟩) | ⟨hs, hp⟩)
        · exact .inl h
        · exact .inr ⟨r, c, (hcov r c).2 (.inl h), hp⟩
        · exact .inr ⟨_, _, (hcov _ _).2 (.inr ⟨hs, rfl, rfl⟩), (this.1 hp).2 hfresh⟩
      · rintro (h | ⟨r, c, h, hp⟩)
        · exact .inl (.inl h)
        · rcases (hcov r c).1 h with h | ⟨hs, rfl, rfl⟩
          · exact .inl (.inr ⟨r, c, h, hp⟩)
          · exact .inr ⟨hs, this.2 ⟨fun _ => hfresh, fun _ => hp⟩⟩

/-- Drawing one sprite row inverts exactly the pixels its set bits fall on, and meets a collision exactly when one of them
was set. -/
theorem drawRow_spec (x y : Nat) (b : Byte) (d : Drawing) :
    (∀ r c, ((drawRow x y b d).1.pixel r c = true ↔ (d.1.pixel r c = true ↔ ¬ rowCovers x y b 8 r c))) ∧
    ((drawRow x y b d).2 = true ↔ d.2 = true ∨ ∃ r c, rowCovers x y b 8 r c ∧ d.1.pixel r c = true) :=
  foldl_drawBit x y b d 8 le_rfl

theorem spriteCovers_cons (x y : Nat) (b : Byte) (rest : List Byte) (r : Fin 32) (c : Fin 64) :
    spriteCovers x y (b :: rest) r c ↔ rowCovers x y b 8 r c ∨ spriteCovers x (y + 1) rest r c := by
  constructor
  · rintro ⟨_ | j, hj, h⟩
    · exact .inl h
    · exact .inr ⟨j, by simpa using hj, by simpa [Nat.add_assoc, Nat.add_comm 1] using h⟩
  · rintro (h | ⟨j, hj, h⟩)
    · exact ⟨0, by simp, h⟩
    · exact ⟨j + 1, by simpa using hj, by simpa [Nat.add_assoc, Nat.add_comm 1] using h⟩

/-- Drawing up to 15 sprite rows inverts exactly the pixels their set bits fall on, since no pixel is met twice, and meets a
collision exactly when one of them was set (R201). -/
theorem drawRows_spec (x y : Nat) (rows : List Byte) (hlen : rows.length < 32) (d : Drawing) :
    (∀ r c, ((drawRows x y rows d).1.pixel r c = true ↔ (d.1.pixel r c = true ↔ ¬ spriteCovers x y rows r c))) ∧
    ((drawRows x y rows d).2 = true ↔ d.2 = true ∨ ∃ r c, spriteCovers x y rows r c ∧ d.1.pixel r c = true) := by
  induction rows generalizing y d with
  | nil => simp [drawRows, spriteCovers]
  | cons b rest ih =>
    simp only [List.length_cons] at hlen
    obtain ⟨hp, hc⟩ := ih (y + 1) (by omega) (drawRow x y b d)
    obtain ⟨hp1, hc1⟩ := drawRow_spec x y b d
    have hapart : ∀ r c, rowCovers x y b 8 r c → ¬ spriteCovers x (y + 1) rest r c := by
      rintro r c ⟨_, _, _, hy, _⟩ ⟨j, hj, _, _, _, hy', _⟩
      omega
    simp only [drawRows, spriteCovers_cons]
    constructor
    · intro r c
      rw [hp, hp1]
      have := hapart r c
      by_cases h1 : rowCovers x y b 8 r c <;> by_cases h2 : spriteCovers x (y + 1) rest r c <;> simp_all
    · rw [hc, hc1]
      constructor
      · rintro ((h | ⟨r, c, h, hpx⟩) | ⟨r, c, h, hpx⟩)
        · exact .inl h
        · exact .inr ⟨r, c, .inl h, hpx⟩
        · exact .inr ⟨r, c, .inr h, ((hp1 r c).1 hpx).2 fun h' => hapart r c h' h⟩
      · rintro (h | ⟨r, c, h | h, hpx⟩)
        · exact .inl (.inl h)
        · exact .inl (.inr ⟨r, c, h, hpx⟩)
        · exact .inr ⟨r, c, h, (hp1 r c).2 ⟨fun _ h' => hapart r c h' h, fun _ => hpx⟩⟩

end Sys2Proof.Machine
end

