-- ==== Sys2Proof/Laws/PerInstr.lean ====
section
/-! SUPPORT. The formats of R73 as numbers and as bits, and the per-instruction family EncodingRow: each instruction's word
has the fixed bits of its own row of spec/opcode_table.json, and so is well formed (R73, R75). -/

namespace Sys2Proof

/-! ### The formats as numbers -/

theorem toNat_append_eq {m n : Nat} (a : BitVec m) (b : BitVec n) :
    (a ++ b).toNat = a.toNat * 2 ^ n + b.toNat := by
  rw [BitVec.toNat_append, ← Nat.shiftLeft_add_eq_or_of_lt b.isLt, Nat.shiftLeft_eq]

@[simp] theorem regBits_toNat (r : Reg) : (regBits r).toNat = r.val := rfl

/-- Format A as a number (R73). -/
theorem formatA_toNat (o : Nibble) (nnn : Addr12) : (formatA o nnn).toNat = o.toNat * 0x1000 + nnn.toNat :=
  toNat_append_eq o nnn

/-- Format XK as a number (R73). -/
theorem formatXK_toNat (o : Nibble) (x : Reg) (kk : Byte) :
    (formatXK o x kk).toNat = o.toNat * 0x1000 + x.val * 0x100 + kk.toNat := by
  refine (toNat_append_eq (o ++ regBits x) kk).trans ?_
  rw [toNat_append_eq, regBits_toNat]
  ring

/-- Formats XY and XYN as a number (R73). -/
theorem formatXYN_toNat (o : Nibble) (x y : Reg) (n : Nibble) :
    (formatXYN o x y n).toNat = o.toNat * 0x1000 + x.val * 0x100 + y.val * 0x10 + n.toNat := by
  refine (toNat_append_eq (o ++ regBits x ++ regBits y) n).trans ?_
  rw [toNat_append_eq, toNat_append_eq, regBits_toNat, regBits_toNat]
  ring

/-- The fields of a word as numbers (R71, R72). -/
theorem fieldFamily_toNat (w : Word) : (fieldFamily w).toNat = w.toNat / 0x1000 := by
  have := w.isLt
  simp [fieldFamily, BitVec.extractLsb'_toNat, Nat.shiftRight_eq_div_pow]
  omega

theorem fieldX_val (w : Word) : (fieldX w).val = w.toNat / 0x100 % 0x10 := by
  simp [fieldX, Nat.shiftRight_eq_div_pow]

theorem fieldY_val (w : Word) : (fieldY w).val = w.toNat / 0x10 % 0x10 := by
  simp [fieldY, Nat.shiftRight_eq_div_pow]

theorem fieldN_toNat (w : Word) : (fieldN w).toNat = w.toNat % 0x10 := by
  simp [fieldN, BitVec.extractLsb'_toNat]

theorem fieldKk_toNat (w : Word) : (fieldKk w).toNat = w.toNat % 0x100 := by
  simp [fieldKk, BitVec.extractLsb'_toNat]

theorem fieldNnn_toNat (w : Word) : (fieldNnn w).toNat = w.toNat % 0x1000 := by
  simp [fieldNnn, BitVec.extractLsb'_toNat]

/-! ### The formats under the masks of the table -/

theorem getLsbD_formatA (o : Nibble) (nnn : Addr12) (i : Nat) :
    (formatA o nnn).getLsbD i = if i < 12 then nnn.getLsbD i else o.getLsbD (i - 12) :=
  BitVec.getLsbD_append

theorem getLsbD_formatXK (o : Nibble) (x : Reg) (kk : Byte) (i : Nat) :
    (formatXK o x kk).getLsbD i =
      if i < 8 then kk.getLsbD i else if i - 8 < 4 then (regBits x).getLsbD (i - 8) else o.getLsbD (i - 8 - 4) := by
  rw [← BitVec.getLsbD_append]
  exact BitVec.getLsbD_append

theorem getLsbD_formatXYN (o : Nibble) (x y : Reg) (n : Nibble) (i : Nat) :
    (formatXYN o x y n).getLsbD i =
      if i < 4 then n.getLsbD i else if i - 4 < 4 then (regBits y).getLsbD (i - 4)
      else if i - 4 - 4 < 4 then (regBits x).getLsbD (i - 4 - 4) else o.getLsbD (i - 4 - 4 - 4) := by
  rw [← BitVec.getLsbD_append, ← BitVec.getLsbD_append]
  exact BitVec.getLsbD_append

theorem formatA_family (o : Nibble) (nnn : Addr12) : formatA o nnn &&& 0xF000 = formatA o 0 := by
  apply BitVec.eq_of_getLsbD_eq
  intro i hi
  rw [BitVec.getLsbD_and, getLsbD_formatA, getLsbD_formatA]
  interval_cases i <;> simp

theorem formatXK_family (o : Nibble) (x : Reg) (kk : Byte) : formatXK o x kk &&& 0xF000 = formatXK o 0 0 := by
  apply BitVec.eq_of_getLsbD_eq
  intro i hi
  rw [BitVec.getLsbD_and, getLsbD_formatXK, getLsbD_formatXK]
  interval_cases i <;> simp [regBits]

theorem formatXK_fixed (o : Nibble) (x : Reg) (kk : Byte) : formatXK o x kk &&& 0xF0FF = formatXK o 0 kk := by
  apply BitVec.eq_of_getLsbD_eq
  intro i hi
  rw [BitVec.getLsbD_and, getLsbD_formatXK, getLsbD_formatXK]
  interval_cases i <;> simp [regBits]

theorem formatXYN_family (o : Nibble) (x y : Reg) (n : Nibble) : formatXYN o x y n &&& 0xF000 = formatXYN o 0 0 0 := by
  apply BitVec.eq_of_getLsbD_eq
  intro i hi
  rw [BitVec.getLsbD_and, getLsbD_formatXYN, getLsbD_formatXYN]
  interval_cases i <;> simp [regBits]

theorem formatXYN_fixed (o : Nibble) (x y : Reg) (n : Nibble) : formatXYN o x y n &&& 0xF00F = formatXYN o 0 0 n := by
  apply BitVec.eq_of_getLsbD_eq
  intro i hi
  rw [BitVec.getLsbD_and, getLsbD_formatXYN, getLsbD_formatXYN]
  interval_cases i <;> simp [regBits]

end Sys2Proof

namespace Sys2Proof.Laws.EncodingRow

/-- The instruction is well formed, and its word has the fixed bits of its own row of the table (R73, R75). -/
def Statement (i : Instr) : Prop :=
  i.wellFormed = true ∧ ∃ row ∈ opcodeRows, row.mnemonic = i.mnemonic ∧ row.matchesWord (encode i) = true

theorem of_row {i : Instr} (row : OpcodeRow) (hrow : row ∈ opcodeRows) (hname : row.mnemonic = i.mnemonic)
    (hbits : encode i &&& row.mask = row.pattern) : Statement i :=
  have hm : row.matchesWord (encode i) = true := decide_eq_true hbits
  ⟨List.any_eq_true.2 ⟨row, hrow, hm⟩, row, hrow, hname, hm⟩

theorem cls : Statement .cls :=
  of_row ⟨"CLS", 0xFFFF, 0x00E0⟩ (by decide) rfl rfl

theorem ret : Statement .ret :=
  of_row ⟨"RET", 0xFFFF, 0x00EE⟩ (by decide) rfl rfl

theorem jp (nnn : Addr12) : Statement (.jp nnn) :=
  of_row ⟨"JP", 0xF000, 0x1000⟩ (by decide) rfl (formatA_family _ _)

theorem call (nnn : Addr12) : Statement (.call nnn) :=
  of_row ⟨"CALL", 0xF000, 0x2000⟩ (by decide) rfl (formatA_family _ _)

theorem seVxKk (x : Reg) (kk : Byte) : Statement (.seVxKk x kk) :=
  of_row ⟨"SE_VX_KK", 0xF000, 0x3000⟩ (by decide) rfl (formatXK_family _ _ _)

theorem sneVxKk (x : Reg) (kk : Byte) : Statement (.sneVxKk x kk) :=
  of_row ⟨"SNE_VX_KK", 0xF000, 0x4000⟩ (by decide) rfl (formatXK_family _ _ _)

theorem seVxVy (x y : Reg) : Statement (.seVxVy x y) :=
  of_row ⟨"SE_VX_VY", 0xF00F, 0x5000⟩ (by decide) rfl (formatXYN_fixed _ _ _ _)

theorem ldVxKk (x : Reg) (kk : Byte) : Statement (.ldVxKk x kk) :=
  of_row ⟨"LD_VX_KK", 0xF000, 0x6000⟩ (by decide) rfl (formatXK_family _ _ _)

theorem addVxKk (x : Reg) (kk : Byte) : Statement (.addVxKk x kk) :=
  of_row ⟨"ADD_VX_KK", 0xF000, 0x7000⟩ (by decide) rfl (formatXK_family _ _ _)

theorem ldVxVy (x y : Reg) : Statement (.ldVxVy x y) :=
  of_row ⟨"LD_VX_VY", 0xF00F, 0x8000⟩ (by decide) rfl (formatXYN_fixed _ _ _ _)

theorem orVxVy (x y : Reg) : Statement (.orVxVy x y) :=
  of_row ⟨"OR", 0xF00F, 0x8001⟩ (by decide) rfl (formatXYN_fixed _ _ _ _)

theorem andVxVy (x y : Reg) : Statement (.andVxVy x y) :=
  of_row ⟨"AND", 0xF00F, 0x8002⟩ (by decide) rfl (formatXYN_fixed _ _ _ _)

theorem xorVxVy (x y : Reg) : Statement (.xorVxVy x y) :=
  of_row ⟨"XOR", 0xF00F, 0x8003⟩ (by decide) rfl (formatXYN_fixed _ _ _ _)

theorem addVxVy (x y : Reg) : Statement (.addVxVy x y) :=
  of_row ⟨"ADD_VX_VY", 0xF00F, 0x8004⟩ (by decide) rfl (formatXYN_fixed _ _ _ _)

theorem subVxVy (x y : Reg) : Statement (.subVxVy x y) :=
  of_row ⟨"SUB", 0xF00F, 0x8005⟩ (by decide) rfl (formatXYN_fixed _ _ _ _)

theorem shrVx (x y : Reg) : Statement (.shrVx x y) :=
  of_row ⟨"SHR", 0xF00F, 0x8006⟩ (by decide) rfl (formatXYN_fixed _ _ _ _)

theorem subnVxVy (x y : Reg) : Statement (.subnVxVy x y) :=
  of_row ⟨"SUBN", 0xF00F, 0x8007⟩ (by decide) rfl (formatXYN_fixed _ _ _ _)

theorem shlVx (x y : Reg) : Statement (.shlVx x y) :=
  of_row ⟨"SHL", 0xF00F, 0x800E⟩ (by decide) rfl (formatXYN_fixed _ _ _ _)

theorem sneVxVy (x y : Reg) : Statement (.sneVxVy x y) :=
  of_row ⟨"SNE_VX_VY", 0xF00F, 0x9000⟩ (by decide) rfl (formatXYN_fixed _ _ _ _)

theorem ldINnn (nnn : Addr12) : Statement (.ldINnn nnn) :=
  of_row ⟨"LD_I_NNN", 0xF000, 0xA000⟩ (by decide) rfl (formatA_family _ _)

theorem jpV0 (nnn : Addr12) : Statement (.jpV0 nnn) :=
  of_row ⟨"JP_V0", 0xF000, 0xB000⟩ (by decide) rfl (formatA_family _ _)

theorem rnd (x : Reg) (kk : Byte) : Statement (.rnd x kk) :=
  of_row ⟨"RND", 0xF000, 0xC000⟩ (by decide) rfl (formatXK_family _ _ _)

theorem drw (x y : Reg) (n : Nibble) : Statement (.drw x y n) :=
  of_row ⟨"DRW", 0xF000, 0xD000⟩ (by decide) rfl (formatXYN_family _ _ _ _)

theorem skp (x : Reg) : Statement (.skp x) :=
  of_row ⟨"SKP", 0xF0FF, 0xE09E⟩ (by decide) rfl (formatXK_fixed _ _ _)

theorem sknp (x : Reg) : Statement (.sknp x) :=
  of_row ⟨"SKNP", 0xF0FF, 0xE0A1⟩ (by decide) rfl (formatXK_fixed _ _ _)

theorem ldVxDt (x : Reg) : Statement (.ldVxDt x) :=
  of_row ⟨"LD_VX_DT", 0xF0FF, 0xF007⟩ (by decide) rfl (formatXK_fixed _ _ _)

theorem ldVxK (x : Reg) : Statement (.ldVxK x) :=
  of_row ⟨"LD_VX_K", 0xF0FF, 0xF00A⟩ (by decide) rfl (formatXK_fixed _ _ _)

theorem ldDtVx (x : Reg) : Statement (.ldDtVx x) :=
  of_row ⟨"LD_DT_VX", 0xF0FF, 0xF015⟩ (by decide) rfl (formatXK_fixed _ _ _)

theorem ldStVx (x : Reg) : Statement (.ldStVx x) :=
  of_row ⟨"LD_ST_VX", 0xF0FF, 0xF018⟩ (by decide) rfl (formatXK_fixed _ _ _)

theorem addIVx (x : Reg) : Statement (.addIVx x) :=
  of_row ⟨"ADD_I_VX", 0xF0FF, 0xF01E⟩ (by decide) rfl (formatXK_fixed _ _ _)

theorem ldFVx (x : Reg) : Statement (.ldFVx x) :=
  of_row ⟨"LD_F_VX", 0xF0FF, 0xF029⟩ (by decide) rfl (formatXK_fixed _ _ _)

theorem ldBVx (x : Reg) : Statement (.ldBVx x) :=
  of_row ⟨"LD_B_VX", 0xF0FF, 0xF033⟩ (by decide) rfl (formatXK_fixed _ _ _)

theorem ldMemVx (x : Reg) : Statement (.ldMemVx x) :=
  of_row ⟨"LD_MEM_VX", 0xF0FF, 0xF055⟩ (by decide) rfl (formatXK_fixed _ _ _)

theorem ldVxMem (x : Reg) : Statement (.ldVxMem x) :=
  of_row ⟨"LD_VX_MEM", 0xF0FF, 0xF065⟩ (by decide) rfl (formatXK_fixed _ _ _)

end Sys2Proof.Laws.EncodingRow
end

