-- ==== Sys2Proof/Laws/Step.lean ====
section
/-! SUPPORT. One lemma for each shared ending of an instruction, for the fetch and for the step: everything it can do. -/

namespace Sys2Proof.Machine

/-! ### Shared endings -/

/-- An instruction with a result alone always answers this state. -/
theorem State.finish_eq (s : State) (x : Reg) (v : Byte) : s.finish x v = .next (s.setReg x v).advance := rfl

/-- An instruction with a result and a flag always answers this state. -/
theorem State.finishFlag_eq (s : State) (x : Reg) (v f : Byte) :
    s.finishFlag x v f = .next ((s.setReg x v).setFlag f).advance := rfl

/-- An instruction that computes I always answers this state. -/
theorem State.finishIndex_eq (s : State) (v : Word) : s.finishIndex v = .next ({ s with I := v }).advance := rfl

/-- A store at I: one of its two faults, or the bytes in memory and PC past the instruction (R53, R54). -/
theorem State.storeAtI_cases (s : State) (i : Instr) (bytes : List Byte) (hlen : 0 < bytes.length) :
    (0x1000 < s.I.toNat + bytes.length ∧ s.storeAtI i bytes = .next (s.raise .memoryOutOfRange i)) ∨
    (s.I.toNat + bytes.length ≤ 0x1000 ∧ s.I.toNat < 0x200 ∧ s.storeAtI i bytes = .next (s.raise .reservedWrite i)) ∨
    (s.I.toNat + bytes.length ≤ 0x1000 ∧ 0x200 ≤ s.I.toNat ∧
      s.storeAtI i bytes = .next ({ s with mem := s.mem.writeBytes s.I.toNat bytes }).advance) := by
  unfold State.storeAtI
  by_cases htop : 0xFFF < s.I.toNat + (bytes.length - 1)
  · exact .inl ⟨by omega, by simp [State.spanPassesTop, State.dataAddr, htop]⟩
  · by_cases hres : s.I.toNat < 0x200
    · exact .inr (.inl ⟨by omega, hres, by
        simp [State.spanPassesTop, State.spanInReserved, State.dataAddr, romBase, htop, hres]⟩)
    · exact .inr (.inr ⟨by omega, by omega, by
        simp [State.spanPassesTop, State.spanInReserved, State.dataAddr, romBase, htop, hres]⟩)

/-- A skip on a key: the fault of a number above 0xF, or the skip by the key's bit (R220, R221). -/
theorem State.skipOnKey_cases (s : State) (i : Instr) (x : Reg) (held : Bool) :
    (0xF < (s.reg x).toNat ∧ s.skipOnKey i x held = .next (s.raise .keyOutOfRange i)) ∨
    (∃ k : Fin 16, (s.reg x).toNat = k.val ∧ s.skipOnKey i x held = .next (s.skipIf (s.keyHeld k == held))) := by
  unfold State.skipOnKey
  cases h : keyOperand (s.reg x) with
  | none => exact .inl ⟨(keyOperand_eq_none _).1 h, rfl⟩
  | some k => exact .inr ⟨k, (keyOperand_eq_some _ _).1 h, rfl⟩

/-- A fault taken is the record and nothing else (R301, R302). -/
theorem State.takeFault_faultsWith (s : State) (c : FaultCause) (o : Option Word) : faultsWith c o s (s.takeFault c o) :=
  ⟨rfl, fun p hp => by cases p <;> first | rfl | simp at hp⟩

/-- The fault of an instruction records its word (R301). -/
theorem State.raise_faultsWith (s : State) (c : FaultCause) (i : Instr) :
    faultsWith c (some (encode i)) s (s.raise c i) := s.takeFault_faultsWith c (some (encode i))

/-- A state whose PC is `next` is 2 bytes past the instruction (R24). -/
theorem advancesBy_of_next {s t : State} (h : t.PC = s.next) : advancesBy 2 s t := by
  rintro ⟨-, htop⟩
  rw [h, State.next, BitVec.toNat_add]
  simp
  omega

/-- A skip is 4 bytes past the instruction when taken and 2 when not (R103). -/
theorem State.skipIf_advancesBy (s : State) (taken : Bool) :
    advancesBy (if taken then 4 else 2) s (s.skipIf taken) := by
  rintro ⟨-, htop⟩
  cases taken <;> simp [State.next, BitVec.toNat_add] <;> omega

/-- A draw's sprite passes the top of memory exactly when it has a row and its last byte lies above 0xFFF (R201). -/
theorem State.spritePassesTop_iff (s : State) (n : Nibble) :
    s.spritePassesTop n = true ↔ 1 ≤ n.toNat ∧ 0xFFF < s.I.toNat + n.toNat - 1 := by
  have hzero : n = 0 ↔ n.toNat = 0 := ⟨fun h => h ▸ rfl, fun h => BitVec.eq_of_toNat_eq h⟩
  rw [State.spritePassesTop, Bool.and_eq_true, decide_eq_true_iff, State.spanPassesTop_iff, ne_eq, hzero]
  omega

/-! ### Fetching -/

/-- The fetched word as a number: big-endian (R55). -/
theorem State.fetchWord_toNat (s : State) :
    s.fetchWord.toNat = (s.mem.read s.PC.toNat).toNat * 0x100 + (s.mem.read (s.PC.toNat + 1)).toNat :=
  toNat_append_eq (s.mem.read s.PC.toNat) (s.mem.read (s.PC.toNat + 1))

/-- The fetch check passes exactly at an even address whose two bytes are in memory (R101). -/
theorem checkFetch_eq_none (pc : Word) : checkFetch pc = none ↔ fetchable pc := by
  unfold checkFetch fetchable
  split
  · simp only [reduceCtorEq, false_iff]
    omega
  · split <;> simp only [reduceCtorEq, false_iff, true_iff] <;> omega

/-- The fetch check fails with MisalignedFetch exactly at an odd address (R101). -/
theorem checkFetch_eq_misaligned (pc : Word) : checkFetch pc = some .misalignedFetch ↔ pc.toNat % 2 = 1 := by
  unfold checkFetch
  split
  · simpa
  · split <;> simp_all

/-- The fetch check fails with FetchOutOfRange exactly at an even address from 0x1000 up (R101). -/
theorem checkFetch_eq_outOfRange (pc : Word) :
    checkFetch pc = some .fetchOutOfRange ↔ pc.toNat % 2 = 0 ∧ 0x1000 ≤ pc.toNat := by
  unfold checkFetch
  split
  · simp only [Option.some.injEq, reduceCtorEq, false_iff]
    omega
  · split <;> simp only [reduceCtorEq, true_iff, false_iff] <;> omega

/-- The fetch check has no other failure. -/
theorem checkFetch_cases (pc : Word) :
    checkFetch pc = none ∨ checkFetch pc = some .misalignedFetch ∨ checkFetch pc = some .fetchOutOfRange := by
  unfold checkFetch
  split
  · simp
  · split <;> simp

/-- The fetch of an active core: a fault of the fetch, a decode fault, or an instruction. -/
theorem State.fetch_of_active {s : State} (h : s.active) :
    (∃ c, checkFetch s.PC = some c ∧ s.fetch = .faulted c none) ∨
    (fetchable s.PC ∧ (∃ e, decode s.fetchWord = .error e) ∧ s.fetch = .faulted .decodeError (some s.fetchWord)) ∨
    (fetchable s.PC ∧ ∃ i, decode s.fetchWord = .ok i ∧ s.fetch = .run i) := by
  obtain ⟨hh, hw⟩ := h
  unfold State.fetch
  rw [hh, hw]
  cases hc : checkFetch s.PC with
  | some c => exact .inl ⟨c, rfl, rfl⟩
  | none =>
    cases hd : decode s.fetchWord with
    | error e => exact .inr (.inl ⟨(checkFetch_eq_none _).1 hc, ⟨e, rfl⟩, rfl⟩)
    | ok i => exact .inr (.inr ⟨(checkFetch_eq_none _).1 hc, i, rfl, rfl⟩)

/-- A core that is not active has nothing to fetch. -/
theorem State.fetch_of_not_active {s : State} (h : ¬ s.active) : s.fetch = .idle := by
  unfold State.fetch
  cases hh : s.halt with
  | some r => rfl
  | none =>
    cases hw : s.wait with
    | waitingForKey r => rfl
    | running => exact absurd ⟨hh, hw⟩ h

/-! ### The step -/

/-- Everything a step can do: nothing, a fault of the fetch, a decode fault, or the instruction at PC (R100). -/
theorem step_cases (s : State) :
    (¬ s.active ∧ step s = .next s) ∨
    (s.active ∧ ∃ c, checkFetch s.PC = some c ∧ step s = .next (s.takeFault c none)) ∨
    (s.active ∧ fetchable s.PC ∧ (∃ e, decode s.fetchWord = .error e) ∧
      step s = .next (s.takeFault .decodeError (some s.fetchWord))) ∨
    (s.active ∧ fetchable s.PC ∧ ∃ i, decode s.fetchWord = .ok i ∧ step s = exec i s) := by
  unfold step
  by_cases h : s.active
  · obtain ⟨c, hc, hf⟩ | ⟨hp, he, hf⟩ | ⟨hp, i, hi, hf⟩ := State.fetch_of_active h <;> rw [hf]
    · exact .inr (.inl ⟨h, c, hc, rfl⟩)
    · exact .inr (.inr (.inl ⟨h, hp, he, rfl⟩))
    · exact .inr (.inr (.inr ⟨h, hp, i, hi, rfl⟩))
  · rw [State.fetch_of_not_active h]
    exact .inl ⟨h, rfl⟩

end Sys2Proof.Machine
end

