-- ==== Sys2Proof/Tests/Slice0.lean ====
section
/-! SUPPORT. Tests of the model. Every expected value is from spec/: the encodings of spec/30_encoding.md and the vectors
T-… of spec/95_test_vectors.md. The last part has one witness theorem for each obligation with hypotheses. -/

namespace Sys2Proof.Tests

open Sys2Proof.Machine

/-! ### Words the check refuses (R76, R77), and words it accepts -/

theorem test_refuses_machine_routine : wellFormedWord 0x0123 = false := by decide
theorem test_refuses_5xy1 : wellFormedWord 0x5121 = false := by decide
theorem test_refuses_8xy8 : wellFormedWord 0x8008 = false := by decide
theorem test_refuses_8xyF : wellFormedWord 0x800F = false := by decide
theorem test_refuses_9xy1 : wellFormedWord 0x9121 = false := by decide
theorem test_refuses_ExA2 : wellFormedWord 0xE0A2 = false := by decide
theorem test_refuses_FxFF : wellFormedWord 0xF0FF = false := by decide
theorem test_accepts_every_encoding : Instr.wellFormed (.drw 0xF 0xF 0xF) = true ∧ Instr.wellFormed (.shlVx 0xA 5) = true := by
  decide

/-! ### Decoding, one word for every instruction, from R73 and R75 -/

theorem test_decode_0_to_3 :
    decode 0x00E0 = .ok .cls ∧ decode 0x00EE = .ok .ret ∧ decode 0x1ABC = .ok (.jp 0xABC) ∧
    decode 0x2210 = .ok (.call 0x210) ∧ decode 0x3305 = .ok (.seVxKk 3 0x05) := ⟨rfl, rfl, rfl, rfl, rfl⟩

theorem test_decode_4_to_7 :
    decode 0x4CA5 = .ok (.sneVxKk 0xC 0xA5) ∧ decode 0x5120 = .ok (.seVxVy 1 2) ∧
    decode 0x6AFF = .ok (.ldVxKk 0xA 0xFF) ∧ decode 0x7F01 = .ok (.addVxKk 0xF 0x01) := ⟨rfl, rfl, rfl, rfl⟩

theorem test_decode_8_logic :
    decode 0x8120 = .ok (.ldVxVy 1 2) ∧ decode 0x8341 = .ok (.orVxVy 3 4) ∧ decode 0x8562 = .ok (.andVxVy 5 6) ∧
    decode 0x8783 = .ok (.xorVxVy 7 8) := ⟨rfl, rfl, rfl, rfl⟩

theorem test_decode_8_arithmetic :
    decode 0x8F14 = .ok (.addVxVy 0xF 1) ∧ decode 0x89A5 = .ok (.subVxVy 9 0xA) ∧ decode 0x8BC6 = .ok (.shrVx 0xB 0xC) ∧
    decode 0x8DE7 = .ok (.subnVxVy 0xD 0xE) ∧ decode 0x801E = .ok (.shlVx 0 1) := ⟨rfl, rfl, rfl, rfl, rfl⟩

theorem test_decode_9_to_D :
    decode 0x9120 = .ok (.sneVxVy 1 2) ∧ decode 0xA300 = .ok (.ldINnn 0x300) ∧ decode 0xBFFF = .ok (.jpV0 0xFFF) ∧
    decode 0xC50F = .ok (.rnd 5 0x0F) ∧ decode 0xD125 = .ok (.drw 1 2 5) := ⟨rfl, rfl, rfl, rfl, rfl⟩

theorem test_decode_E_F_low :
    decode 0xE39E = .ok (.skp 3) ∧ decode 0xE4A1 = .ok (.sknp 4) ∧ decode 0xFB07 = .ok (.ldVxDt 0xB) ∧
    decode 0xF30A = .ok (.ldVxK 3) ∧ decode 0xFA15 = .ok (.ldDtVx 0xA) := ⟨rfl, rfl, rfl, rfl, rfl⟩

theorem test_decode_F_high :
    decode 0xF118 = .ok (.ldStVx 1) ∧ decode 0xF21E = .ok (.addIVx 2) ∧ decode 0xF329 = .ok (.ldFVx 3) ∧
    decode 0xF033 = .ok (.ldBVx 0) ∧ decode 0xFF55 = .ok (.ldMemVx 0xF) ∧ decode 0xF265 = .ok (.ldVxMem 2) :=
  ⟨rfl, rfl, rfl, rfl, rfl, rfl⟩

/-- A lone byte is no instruction (R70), and the rest of the bytes is given back. -/
theorem test_decode_bytes :
    decodeBytes [0x60] = .error .truncated ∧ decodeBytes [0x60, 0x05, 0xAA] = .ok (.ldVxKk 0 0x05, [0xAA]) := ⟨rfl, rfl⟩

/-- The operand bits a table word leaves out are 0 (JP's row read with the address bits of 0x1ABC). -/
theorem test_decode_table_word :
    decodeTableWord 16 0x1ABC = some (.jp 0xABC) ∧ decodeTableWord 16 0x0000 = none := ⟨rfl, rfl⟩

/-! ### One step -/

/-- The state after the word `w`, placed at PC, has run. -/
def after (w : Nat) (s : State) : Option State :=
  match step (s.withFetchWord 16 w) with
  | .next t => some t
  | _ => none

/-- The state at reset with some registers set. -/
def withRegs (l : List (Reg × Byte)) : State := l.foldl (fun s p => s.setReg p.1 p.2) State.reset

/-- V0 and V1. -/
def regs01 (a b : Byte) : State := withRegs [(0, a), (1, b)]

/-- What a word does to Vx and VF. -/
def result (w : Nat) (x : Reg) (s : State) : Option (Byte × Byte) := (after w s).map fun t => (t.reg x, t.reg 0xF)

/-- The halt record a word leaves. -/
def record (w : Nat) (s : State) : Option FaultRecord := (after w s).bind (·.halt)

/-- PC after a word. -/
def pcAfter (w : Nat) (s : State) : Option Word := (after w s).map (·.PC)

/-! T-C1 to T-C15 -/

theorem test_ret : (after 0x00EE { State.reset with SP := 1, stack := State.reset.stack.set 0 0x206, PC := 0x212 }).map
    (fun t => (t.SP, t.PC)) = some (0, 0x206) := by decide
theorem test_ret_underflow : record 0x00EE State.reset = some ⟨.stackUnderflow, 0x200, some 0x00EE⟩ := by decide
theorem test_jp : pcAfter 0x1ABC State.reset = some 0xABC := by decide
theorem test_call : (after 0x2210 { State.reset with PC := 0x204 }).map (fun t => (t.stack[0], t.SP, t.PC)) =
    some (0x206, 1, 0x210) := by decide
theorem test_call_overflow : record 0x2300 { State.reset with SP := 16 } =
    some ⟨.stackOverflow, 0x200, some 0x2300⟩ := by decide
theorem test_jp_v0 : pcAfter 0xB300 (withRegs [(0, 0x04)]) = some 0x304 := by decide
theorem test_jp_v0_out_of_range : pcAfter 0xBFFF (withRegs [(0, 0xFF)]) = some 0x10FE := by decide
theorem test_se_byte : pcAfter 0x3305 { withRegs [(3, 0x05)] with PC := 0x206 } = some 0x20A ∧
    pcAfter 0x3305 { withRegs [(3, 0x06)] with PC := 0x206 } = some 0x208 := by decide
theorem test_sne_byte : pcAfter 0x4305 { withRegs [(3, 0x05)] with PC := 0x206 } = some 0x208 ∧
    pcAfter 0x4305 { withRegs [(3, 0x06)] with PC := 0x206 } = some 0x20A := by decide
theorem test_se_regs : pcAfter 0x5120 (withRegs [(1, 0x10), (2, 0x10)]) = some 0x204 ∧
    pcAfter 0x5120 (withRegs [(1, 0x10), (2, 0x11)]) = some 0x202 := by decide
theorem test_sne_regs : pcAfter 0x9120 (withRegs [(1, 0x10), (2, 0x11)]) = some 0x204 ∧
    pcAfter 0x9120 (withRegs [(1, 0x10), (2, 0x10)]) = some 0x202 := by decide

/-! T-C16 to T-C27 -/

theorem test_decode_error : record 0x5121 State.reset = some ⟨.decodeError, 0x200, some 0x5121⟩ ∧
    record 0xF0FF State.reset = some ⟨.decodeError, 0x200, some 0xF0FF⟩ := by decide
theorem test_misaligned_fetch : record 0x6001 { State.reset with PC := 0x201 } =
    some ⟨.misalignedFetch, 0x201, none⟩ := by decide
theorem test_fetch_out_of_range : record 0x6001 { State.reset with PC := 0x1000 } =
    some ⟨.fetchOutOfRange, 0x1000, none⟩ := by decide
theorem test_last_fetch : pcAfter 0x6001 { State.reset with PC := 0xFFE } = some 0x1000 := by decide
theorem test_skip_to_top : pcAfter 0x3000 { State.reset with PC := 0xFFC } = some 0x1000 := by decide

/-! T-A1 to T-A34 -/

theorem test_ld_byte : result 0x6AFF 0xA State.reset = some (0xFF, 0x00) := by decide
theorem test_add_byte : result 0x70FF 0 (withRegs [(0, 0x01), (0xF, 0x55)]) = some (0x00, 0x55) ∧
    result 0x7F01 0xF (withRegs [(0xF, 0x7F)]) = some (0x80, 0x80) := by decide
theorem test_ld_reg : result 0x8010 0 (regs01 0x00 0x2A) = some (0x2A, 0x00) := by decide
theorem test_or : result 0x8011 0 (withRegs [(0, 0xF0), (1, 0x0F), (0xF, 0x55)]) = some (0xFF, 0x55) := by decide
theorem test_and : result 0x8012 0 (withRegs [(0, 0xF0), (1, 0x3C), (0xF, 0x55)]) = some (0x30, 0x55) := by decide
theorem test_xor : result 0x8013 0 (regs01 0xF0 0x3C) = some (0xCC, 0x00) ∧
    result 0x8003 0 (regs01 0x5A 0x00) = some (0x00, 0x00) := by decide
theorem test_add : result 0x8014 0 (regs01 0xFF 0xFF) = some (0xFE, 1) ∧
    result 0x8014 0 (regs01 0x7F 0x80) = some (0xFF, 0) := by decide
theorem test_add_flag_last : result 0x8F14 0xF (withRegs [(1, 0x01), (0xF, 0xFF)]) = some (1, 1) := by decide
theorem test_sub : result 0x8015 0 (regs01 0x03 0x02) = some (0x01, 1) ∧
    result 0x8015 0 (regs01 0x02 0x02) = some (0x00, 0) ∧ result 0x8015 0 (regs01 0x00 0x01) = some (0xFF, 0) := by decide
theorem test_sub_flag_last : result 0x8F05 0xF (withRegs [(0, 0x03), (0xF, 0x05)]) = some (1, 1) := by decide
theorem test_subn : result 0x8017 0 (regs01 0x01 0x02) = some (0x01, 1) ∧
    result 0x8017 0 (regs01 0x02 0x02) = some (0x00, 0) ∧ result 0x8017 0 (regs01 0x02 0x01) = some (0xFF, 0) := by decide
theorem test_shr : result 0x8016 0 (regs01 0xFF 0x00) = some (0x7F, 1) ∧
    result 0x8016 0 (regs01 0x02 0xFF) = some (0x01, 0) := by decide
theorem test_shl : result 0x801E 0 (regs01 0x80 0xFF) = some (0x00, 1) ∧
    result 0x801E 0 (regs01 0x7F 0x00) = some (0xFE, 0) := by decide
theorem test_rnd : Config.randomByte 0 = 0xA7 → result 0xC00F 0 State.reset = some (0x07, 0x00) := by
  intro h
  show some (Config.randomByte 0 &&& 0x0F, (0x00 : Byte)) = some (0x07, 0x00)
  rw [h]
  rfl

/-! T-M1 to T-M23. The font is a parameter, so T-M5, T-M6 and T-M20 are tested on the operations at the spec's defaults. -/

theorem test_ld_i : (after 0xA300 { State.reset with I := 0xFFFF }).map (·.I) = some 0x0300 := by decide
theorem test_add_i : (after 0xF21E { withRegs [(2, 0x01), (0xF, 0x55)] with I := 0x0FFF }).map (fun t => (t.I, t.reg 0xF)) =
    some (0x1000, 0x55) := by decide
theorem test_add_i_wraps : (after 0xF21E { withRegs [(2, 0x01)] with I := 0xFFFF }).map (·.I) = some 0x0000 := by decide
theorem test_glyph_address : glyphAddr Config.defaultFontBase 0x0A = 0x0082 ∧ glyphAddr Config.defaultFontBase 0x1A = 0x0082 ∧
    glyphAddr 0x000 0x00 = 0x0000 := by decide
theorem test_glyph_bytes :
    ((List.range 5).map fun k => createdByte Config.defaultFontBase Config.defaultFont (0x082 + k)) =
      [0xF0, 0x90, 0xF0, 0x90, 0x90] := by decide
theorem test_bcd : (after 0xF033 { withRegs [(0, 0xEA)] with I := 0x300 }).map
    (fun t => ((t.mem.read 0x300, t.mem.read 0x301, t.mem.read 0x302), t.I)) = some ((2, 3, 4), 0x300) := by decide
theorem test_bcd_faults : record 0xF033 { State.reset with I := 0xFFE } = some ⟨.memoryOutOfRange, 0x200, some 0xF033⟩ ∧
    record 0xF033 { State.reset with I := 0x1FF } = some ⟨.reservedWrite, 0x200, some 0xF033⟩ := by decide
theorem test_block_store : (after 0xF155 { regs01 0x11 0x22 with I := 0x300 }).map
    (fun t => (t.mem.read 0x300, t.mem.read 0x301, t.mem.read 0x302, t.I)) = some (0x11, 0x22, 0x00, 0x300) := by decide
theorem test_block_store_faults : record 0xFF55 { State.reset with I := 0xFF1 } =
      some ⟨.memoryOutOfRange, 0x200, some 0xFF55⟩ ∧
    record 0xF055 { State.reset with I := 0x050 } = some ⟨.reservedWrite, 0x200, some 0xF055⟩ := by decide
theorem test_block_load : (after 0xF265 { State.reset with I := 0x300, mem := [(0x300, 2), (0x301, 3), (0x302, 4)] }).map
    (fun t => (t.reg 0, t.reg 1, t.reg 2, t.I)) = some (2, 3, 4, 0x300) := by decide
theorem test_block_load_fault : record 0xF165 { State.reset with I := 0xFFF } =
    some ⟨.memoryOutOfRange, 0x200, some 0xF165⟩ := by decide

/-! T-D1 to T-D10 -/

/-- The state at reset with a sprite byte at 0x300 and I there. -/
def withSprite (b : Byte) (s : State) : State := { s with I := 0x300, mem := [(0x300, b)] }

/-- VF, redraw and some pixels. -/
def picture (pixels : List (Fin 32 × Fin 64)) (o : Option State) : Option (Byte × Bool × List Bool) :=
  o.map fun t => (t.reg 0xF, t.redraw, pixels.map fun p => t.fb.pixel p.1 p.2)

theorem test_cls : picture [(0, 0)] (after 0x00E0 { State.reset with fb := Framebuffer.blank.setPixel 0 0 true }) =
    some (0, true, [false]) := by decide
theorem test_draw :
    picture [(1, 0), (1, 1), (1, 2), (1, 3)] (after 0xD011 (withSprite 0xC0 (regs01 1 1))) =
      some (0, true, [false, true, true, false]) ∧
    picture [(31, 62), (31, 63), (31, 0), (31, 6), (31, 7)] (after 0xD011 (withSprite 0xFF (regs01 0x3F 0x1F))) =
      some (0, true, [false, true, true, true, false]) ∧
    picture [(2, 3), (2, 10)] (after 0xD011 { withSprite 0x81 (regs01 3 2) with fb := Framebuffer.blank.setPixel 2 3 true }) =
      some (1, true, [false, true]) := by decide
theorem test_draw_edges :
    picture [(0, 5), (0, 0)] (after 0xDF01 (withSprite 0x80 (withRegs [(0xF, 0x05)]))) = some (0, true, [true, false]) ∧
    picture [] (after 0xD010 (withRegs [(0xF, 0x07)])) = some (0, true, []) ∧
    record 0xD012 { State.reset with I := 0xFFF } = some ⟨.memoryOutOfRange, 0x200, some 0xD012⟩ := by decide

/-! T-K1 to T-K18 -/

theorem test_skp : pcAfter 0xE39E { withRegs [(3, 7)] with PC := 0x202, keypad := 0x0080 } = some 0x206 ∧
    pcAfter 0xE39E { withRegs [(3, 7)] with PC := 0x202 } = some 0x204 := by decide
theorem test_skp_fault : record 0xE39E (withRegs [(3, 0x10)]) = some ⟨.keyOutOfRange, 0x200, some 0xE39E⟩ := by decide
theorem test_sknp : pcAfter 0xE3A1 { withRegs [(3, 7)] with PC := 0x202 } = some 0x206 ∧
    pcAfter 0xE3A1 { withRegs [(3, 7)] with PC := 0x202, keypad := 0x0080 } = some 0x204 := by decide
theorem test_ld_vx_dt : result 0xFB07 0xB { State.reset with DT := 0x3C } = some (0x3C, 0) := by decide
theorem test_ld_dt_vx : (after 0xFA15 (withRegs [(0xA, 0x3C)])).map (fun t => (t.DT, t.ST)) = some (0x3C, 0) := by decide
theorem test_ld_st_vx : (after 0xF118 (withRegs [(1, 0x05)])).map (fun t => (t.DT, t.ST)) = some (0, 0x05) := by decide
theorem test_ld_vx_k : (after 0xF30A State.reset).map (fun t => (t.wait, t.PC)) = some (.waitingForKey 3, 0x202) := by decide

/-- A state that waits for a key for V3. -/
def waiting : State := { State.reset with wait := .waitingForKey 3, keypad := 0x0020, DT := 5 }

theorem test_set_key : (waiting.setKey 0xC).keypad = 0x1020 ∧ (waiting.setKey 0xC).reg 3 = 0x0C ∧
    (waiting.setKey 0xC).wait = .running := by decide
theorem test_set_key_held : (waiting.setKey 5).reg 3 = 5 ∧ (waiting.setKey 5).wait = .running := by decide
theorem test_release_key : (waiting.releaseKey 5).keypad = 0 ∧ (waiting.releaseKey 5).wait = .waitingForKey 3 := by decide
theorem test_set_key_running : ((withRegs [(3, 0x44)]).setKey 1).keypad = 0x0002 ∧
    ((withRegs [(3, 0x44)]).setKey 1).reg 3 = 0x44 := by decide
theorem test_tick : waiting.tickTimers.DT = 4 ∧ waiting.tickTimers.ST = 0 ∧
    waiting.tickTimers.wait = .waitingForKey 3 := by decide
theorem test_load : (State.reset.load [0x60, 0x05]).2.mem = [(0x200, 0x60), (0x201, 0x05)] ∧
    (State.reset.load []) = (.ok, State.reset) := by decide
theorem test_load_too_long (b : Byte) : State.reset.load (List.replicate 3585 b) = (.rejected, State.reset) :=
  if_pos (by rw [List.length_replicate]; decide)
theorem test_ack : ({ State.reset with redraw := true }).ackRedraw.redraw = false := by decide

/-- A step from reset with no program loaded: memory there is 0x0000, an illegal word (R353). -/
theorem test_step_without_load : (match step State.reset with
    | .next t => t.halt
    | _ => none) = some ⟨.decodeError, 0x200, some 0x0000⟩ := by decide

/-! ### Witnesses: states and operands that meet the hypotheses of each obligation, at the ends of the ranges -/

/-- The state at reset with the word `w` at PC. -/
def at0x200 (w : Nat) : State := State.reset.withFetchWord 16 w

/-- Where a run of events ends. -/
def ends (events : List Event) (s : State) : Option State :=
  match runEvents events s with
  | .next t => some t
  | _ => none

theorem exists_next_of_ends {events : List Event} {s : State} (h : (ends events s).isSome = true) :
    ∃ t, runEvents events s = .next t := by
  unfold ends at h
  split at h
  · exact ⟨_, by assumption⟩
  · cases h

theorem witness_EncodeOfDecode : decode 0x8BC6 = .ok (.shrVx 0xB 0xC) := rfl

theorem witness_IllegalWordsAreRefused :
    (∃ e, decode 0xF0FF = .error e) ∧ (∀ i, decode 0xF0FF ≠ .ok i) ∧ (∀ i, decode 0x00E1 ≠ .ok i) ∧
    (∀ i, decode 0x5121 ≠ .ok i) ∧ (∀ i, decode 0x800F ≠ .ok i) ∧ (∀ i, decode 0x912F ≠ .ok i) ∧
    (∀ i, decode 0xE09F ≠ .ok i) :=
  ⟨⟨.illegalWord 0xF0FF, rfl⟩, nofun, nofun, nofun, nofun, nofun, nofun⟩

theorem witness_OpcodeTableAgrees : decode 0x00EE = .ok .ret ∧ decode 0x00EF = .error (.illegalWord 0x00EF) := ⟨rfl, rfl⟩

theorem active_at0x200 (w : Nat) : (at0x200 w).active := ⟨rfl, rfl⟩

theorem fetchable_reset : fetchable State.reset.PC := ⟨rfl, by decide⟩

theorem fetchable_at0x200 (w : Nat) : fetchable (at0x200 w).PC := fetchable_reset

theorem witness_StepRunsTheDecodedInstruction :
    (at0x200 0x8F14).active ∧ fetchable (at0x200 0x8F14).PC ∧
    decodeBytes [(at0x200 0x8F14).mem.read (at0x200 0x8F14).PC.toNat, (at0x200 0x8F14).mem.read ((at0x200 0x8F14).PC.toNat + 1)]
      = .ok (.addVxVy 0xF 1, []) := ⟨active_at0x200 _, fetchable_at0x200 _, rfl⟩

/-- The last address a fetch may have, the first even one it may not, and an odd one above memory: the checks' boundary. -/
theorem witness_StepFollowsItsChecks :
    (∃ s : State, s.halt ≠ none) ∧ (waiting.halt = none ∧ waiting.wait = .waitingForKey 3) ∧
    (∃ s : State, s.active ∧ s.PC.toNat % 2 = 1) ∧ (∃ s : State, s.active ∧ s.PC.toNat % 2 = 0 ∧ s.PC.toNat = 0x1000) ∧
    (∃ s : State, s.active ∧ fetchable s.PC ∧ s.PC = 0xFFE ∧ ∃ w : Word,
      w.toNat = (s.mem.read s.PC.toNat).toNat * 0x100 + (s.mem.read (s.PC.toNat + 1)).toNat ∧ ∀ i, decode w ≠ .ok i) ∧
    ∃ w : Word, w.toNat = ((at0x200 0x1200).mem.read (at0x200 0x1200).PC.toNat).toNat * 0x100 +
      ((at0x200 0x1200).mem.read ((at0x200 0x1200).PC.toNat + 1)).toNat ∧ decode w = .ok (.jp 0x200) :=
  ⟨⟨State.reset.takeFault .decodeError none, by decide⟩, ⟨rfl, rfl⟩, ⟨{ State.reset with PC := 0xFFFF }, ⟨rfl, rfl⟩, by decide⟩,
    ⟨{ State.reset with PC := 0x1000 }, ⟨rfl, rfl⟩, by decide, by decide⟩,
    ⟨{ State.reset with PC := 0xFFE }, ⟨rfl, rfl⟩, ⟨by decide, by decide⟩, rfl, 0x0000, by decide, nofun⟩,
    0x1200, by decide, rfl⟩

/-- A fault with an opcode, and one without. -/
theorem witness_FaultEntryIsPrecise :
    (∃ t, step (at0x200 0x00EE) = .next t ∧ t.halt = some ⟨.stackUnderflow, 0x200, some 0x00EE⟩) ∧
    ∃ t, step { State.reset with PC := 0x201 } = .next t ∧ t.halt = some ⟨.misalignedFetch, 0x201, none⟩ :=
  ⟨⟨_, rfl, by decide⟩, ⟨_, rfl, by decide⟩⟩

/-- An active state whose word at PC decodes to an instruction. -/
theorem decodesTo_at0x200 {w : Nat} {i : Instr} (h : decode (at0x200 w).fetchWord = .ok i) : (at0x200 w).decodesTo i :=
  ⟨fetchable_at0x200 w, h⟩

/-- Each condition of R300 holds of some active state, at its boundary. -/
theorem witness_FaultsAreExactlyTheTable :
    (∃ s : State, s.active ∧ FaultCause.condition s .decodeError) ∧ (∃ s : State, s.active ∧ FaultCause.condition s .stackOverflow) ∧
    (∃ s : State, s.active ∧ FaultCause.condition s .stackUnderflow) ∧
    (∃ s : State, s.active ∧ FaultCause.condition s .memoryOutOfRange) ∧
    (∃ s : State, s.active ∧ FaultCause.condition s .fetchOutOfRange) ∧
    (∃ s : State, s.active ∧ FaultCause.condition s .misalignedFetch) ∧
    (∃ s : State, s.active ∧ FaultCause.condition s .reservedWrite) ∧
    (∃ s : State, s.active ∧ FaultCause.condition s .keyOutOfRange) :=
  ⟨⟨at0x200 0x0000, ⟨rfl, rfl⟩, fetchable_at0x200 _, nofun⟩,
    ⟨{ at0x200 0x2200 with SP := 16 }, ⟨rfl, rfl⟩, 0x200, decodesTo_at0x200 (w := 0x2200) rfl, rfl⟩,
    ⟨at0x200 0x00EE, ⟨rfl, rfl⟩, decodesTo_at0x200 rfl, rfl⟩,
    ⟨{ at0x200 0xF033 with I := 0xFFE }, ⟨rfl, rfl⟩, .inr (.inl ⟨0, decodesTo_at0x200 (w := 0xF033) rfl, by decide⟩)⟩,
    ⟨{ State.reset with PC := 0x1000 }, ⟨rfl, rfl⟩, by decide, by decide⟩,
    ⟨{ State.reset with PC := 0xFFF }, ⟨rfl, rfl⟩, by show _ % 2 = 1; decide⟩,
    ⟨{ at0x200 0xF055 with I := 0x1FF }, ⟨rfl, rfl⟩, 0, .inr (decodesTo_at0x200 (w := 0xF055) rfl), by decide⟩,
    ⟨(at0x200 0xE09E).setReg 0 0x10, ⟨rfl, rfl⟩, 0, .inl (decodesTo_at0x200 (w := 0xE09E) rfl), by decide⟩⟩

/-- A halted state with a frame on its stack. -/
def stopped : State := ({ State.reset with SP := 1, stack := State.reset.stack.set 0 0x206 }).takeFault .decodeError (some 0x0000)

theorem witness_HaltIsAbsorbing :
    (stopped.halt = some ⟨.decodeError, 0x200, some 0x0000⟩ ∧
      ∃ t, runEvents [.step, .tickTimers, .load [0x60], .setKey 0xF, .step] stopped = .next t) ∧
    Event.setKey 5 ≠ .step ∧ ∃ t, applyEvent (.setKey 5) waiting = .next t :=
  ⟨⟨rfl, exists_next_of_ends (by decide)⟩, by decide, _, rfl⟩

theorem witness_PcTakesOneOfThreeValues :
    fetchable State.reset.PC ∧ State.reset.halt = none ∧ ∃ t, exec (.jpV0 0xFFF) State.reset = .next t ∧ t.halt = none :=
  ⟨⟨rfl, by decide⟩, rfl, _, rfl, rfl⟩

/-- A form that stores nothing, a form that stores, and a form that faults. -/
theorem witness_InstructionsWriteOnlyTheirParts :
    (∃ t, exec (.orVxVy 1 2) State.reset = .next t) ∧ (∃ t, exec (.ldMemVx 0xF) { State.reset with I := 0xFF0 } = .next t) ∧
    ∃ t, exec (.ldMemVx 0xF) { State.reset with I := 0xFF1 } = .next t := ⟨⟨_, rfl⟩, ⟨_, rfl⟩, ⟨_, rfl⟩⟩

/-- Two different states that no program can tell apart. -/
theorem witness_HiddenStateIsUnobservable :
    ∃ s' : State, s' ≠ at0x200 0x2210 ∧ (at0x200 0x2210).sameForPrograms s' ∧ (∃ t, step (at0x200 0x2210) = .next t) ∧
      ∃ t, step s' = .next t :=
  ⟨{ at0x200 0x2210 with ST := 9, redraw := true, stack := State.reset.stack.set 3 0x206 }, by
      intro h
      exact absurd (congrArg State.redraw h) (by decide),
    ⟨fun _ => rfl, rfl, rfl, rfl, fun j hj => absurd hj (Nat.not_lt_zero _), rfl, fun _ => rfl, rfl, rfl, rfl, rfl, rfl⟩,
    ⟨_, rfl⟩, ⟨_, rfl⟩⟩

/-- The invariant holds of a running state with a program in memory and a frame on the stack. -/
def running : State := { at0x200 0x2210 with SP := 1, stack := State.reset.stack.set 0 0x206 }

theorem running_mem : running.mem = [(0x200, 0x22), (0x201, 0x10)] := by decide

theorem inv_running : running.Inv where
  memWf := by
    rw [running_mem]
    refine ⟨by decide, fun c hc => ?_⟩
    simp only [List.mem_cons, List.not_mem_nil, or_false] at hc
    rcases hc with rfl | rfl <;> exact ⟨by decide, by decide⟩
  reservedIntact := fun a ha => by
    rw [running_mem]
    have : a < 0x200 := ha
    simp only [Memory.read, if_neg (show a ≠ 0x200 by omega), if_neg (show a ≠ 0x201 by omega)]
  frames := fun j hj => by
    have : j = 0 := by
      have : j.val < 1 := hj
      omega
    subst this
    exact ⟨rfl, by decide, by decide⟩
  waitOrHalt := .inl rfl
  recordFits := fun _ hr => nomatch hr

theorem witness_StepKeepsInvariant : running.Inv ∧ ∃ t, step running = .next t := ⟨inv_running, _, rfl⟩

theorem witness_EveryInterleavingKeepsInvariant :
    running.Inv ∧ ∃ t, runEvents [.setKey 3, .step, .tickTimers, .load [0x12, 0x00], .ackRedraw] running = .next t :=
  ⟨inv_running, exists_next_of_ends (by decide)⟩

theorem witness_ReservedRegionNeverChanges : (∃ t, runEvents [.step, .load [0x12, 0x00]] running = .next t) ∧ 0x1FF < 0x200 :=
  ⟨exists_next_of_ends (by decide), by decide⟩

theorem witness_ReturnPopsOrUnderflows :
    (∃ s : State, s.SP.val ≠ 0 ∧ ∃ j : Fin 16, j.val + 1 = s.SP.val) ∧ (∃ s : State, s.SP = 16 ∧ s.SP.val ≠ 0) ∧
    State.reset.SP.val = 0 :=
  ⟨⟨running, by decide, 0, rfl⟩, ⟨{ State.reset with SP := 16 }, rfl, by decide⟩, rfl⟩

theorem witness_CallPushesOrOverflows :
    (∃ s : State, s.SP.val < 16 ∧ fetchable s.PC ∧ ∃ j : Fin 16, j = 15 ∧ j.val = s.SP.val) ∧ ∃ s : State, s.SP.val = 16 :=
  ⟨⟨{ State.reset with SP := 15, PC := 0xFFE }, by decide, ⟨by decide, by decide⟩, 15, rfl, rfl⟩,
    ⟨{ State.reset with SP := 16 }, rfl⟩⟩

theorem witness_ReturnResumesAfterCall :
    fetchable State.reset.PC ∧ State.reset.SP.val < 16 ∧
    ∃ t u, exec (.call 0x210) State.reset = .next t ∧ u.SP = t.SP ∧ u.stack = t.stack ∧ u ≠ t ∧ ∃ j : Fin 16, ¬ j.val < t.SP.val :=
  ⟨⟨rfl, by decide⟩, by decide, _, { State.reset with SP := 1, stack := State.reset.stack.set 0 0x202 }, rfl, rfl, by decide,
    by
      intro h
      exact absurd (congrArg State.PC h) (by decide),
    1, by decide⟩

theorem witness_SelfJumpIsIdle : (at0x200 0x1200).ended := ⟨⟨rfl, rfl⟩, 0x200, decodesTo_at0x200 rfl, rfl⟩

/-- The result statements of the ALU have one side condition, which holds of VE and not of VF. -/
theorem witness_AddSetsCarry_SubtractionsSetStrictFlag_ShiftsMoveOneBit : (0xE : Reg) ≠ 0xF := by decide

theorem witness_RandomIsMaskedDraw : ∃ kk : Byte, kk = 0x00 := ⟨0x00, rfl⟩

/-- The first and the last legal I of a BCD store, and the addresses just outside. -/
theorem witness_BcdStoresThreeDigits :
    (∃ s : State, s.I = 0xFFE ∧ 0xFFF < s.I.toNat + 2) ∧ (∃ s : State, s.I = 0x1FF ∧ s.I.toNat < 0x200) ∧
    (∃ s : State, s.I = 0x200 ∧ 0x200 ≤ s.I.toNat ∧ s.I.toNat + 2 ≤ 0xFFF) ∧
    ∃ s : State, s.I = 0xFFD ∧ 0x200 ≤ s.I.toNat ∧ s.I.toNat + 2 ≤ 0xFFF :=
  ⟨⟨{ State.reset with I := 0xFFE }, rfl, by decide⟩, ⟨{ State.reset with I := 0x1FF }, rfl, by decide⟩,
    ⟨{ State.reset with I := 0x200 }, rfl, by decide, by decide⟩, ⟨{ State.reset with I := 0xFFD }, rfl, by decide, by decide⟩⟩

/-- The same for a block of all 16 registers, stored or loaded. -/
theorem witness_BlockStoreWritesRegisters_BlockLoadReadsRegisters :
    (∃ s : State, s.I = 0xFF1 ∧ 0xFFF < s.I.toNat + (0xF : Reg).val) ∧ (∃ s : State, s.I = 0x1FF ∧ s.I.toNat < 0x200) ∧
    (∃ s : State, s.I = 0x200 ∧ 0x200 ≤ s.I.toNat ∧ s.I.toNat + (0xF : Reg).val ≤ 0xFFF) ∧
    (∃ s : State, s.I = 0xFF0 ∧ 0x200 ≤ s.I.toNat ∧ s.I.toNat + (0xF : Reg).val ≤ 0xFFF) ∧ (0xF : Reg) ≤ 0xF :=
  ⟨⟨{ State.reset with I := 0xFF1 }, rfl, by decide⟩, ⟨{ State.reset with I := 0x1FF }, rfl, by decide⟩,
    ⟨{ State.reset with I := 0x200 }, rfl, by decide, by decide⟩, ⟨{ State.reset with I := 0xFF0 }, rfl, by decide, by decide⟩,
    by decide⟩

theorem witness_StoresAreSeenByFetch :
    (∃ s u t : State, 0x200 ≤ s.I.toNat ∧ s.I.toNat + (1 : Reg).val ≤ 0xFFF ∧ exec (.ldMemVx 1) s = .next t ∧ u.mem = t.mem ∧
      u.PC.toNat = s.I.toNat + (0 : Reg).val ∧ u.PC.toNat + 1 = s.I.toNat + (1 : Reg).val) ∧
    (∃ s u t : State, 0x200 ≤ s.I.toNat ∧ s.I.toNat + 2 ≤ 0xFFF ∧ exec (.ldBVx 0) s = .next t ∧ u.mem = t.mem ∧
      u.PC.toNat = s.I.toNat) ∧
    ∃ (s u : State) (bytes : List Byte), 0 < bytes.length ∧ bytes.length ≤ 3584 ∧ u.mem = (s.load bytes).2.mem ∧
      u.PC.toNat = 0x200 + 0 :=
  ⟨⟨{ State.reset with I := 0x200 }, State.withFetchWord State.reset 16 0x0000, _, by decide, by decide, rfl, rfl, by decide,
      by decide⟩,
    ⟨{ State.reset with I := 0x200 }, State.reset, _, by decide, by decide, rfl, by decide, rfl⟩,
    ⟨State.reset, (State.reset.load [0x60, 0x05]).2, [0x60, 0x05], by decide, by decide, rfl, rfl⟩⟩

/-- No row with I anywhere; one row at the last byte; a sprite one byte too long; and both kinds of pixel. -/
theorem witness_DrawInvertsAndDetectsCollision :
    (∃ s : State, 1 ≤ (2 : Nibble).toNat ∧ 0xFFF < s.I.toNat + (2 : Nibble).toNat - 1 ∧ s.I = 0xFFF) ∧
    (0 : Nibble).toNat = 0 ∧ (∃ s : State, s.I = 0xFFF ∧ s.I.toNat + (1 : Nibble).toNat - 1 ≤ 0xFFF) ∧
    (∃ s : State, ∃ r c, s.spriteSets 0 1 1 r c ∧ s.fb.pixel r c = true) ∧
    (∀ r c, ¬ State.reset.spriteSets 0 1 0 r c) :=
  ⟨⟨{ State.reset with I := 0xFFF }, by decide, by decide, rfl⟩, rfl, ⟨{ State.reset with I := 0xFFF }, rfl, by decide⟩,
    ⟨{ withSprite 0x80 State.reset with fb := Framebuffer.blank.setPixel 0 0 true }, 0, 0,
      ⟨0, by decide, 0, by decide, by decide, by decide, by decide⟩, by decide⟩,
    fun r c ⟨k, hk, _⟩ => absurd hk (Nat.not_lt_zero k)⟩

/-- A draw of two set bits over a clear display, drawn again; and one at column 63, row 31. -/
theorem witness_DrawingTwiceRestores :
    ((withSprite 0xC0 (regs01 1 1)).I.toNat + (1 : Nibble).toNat - 1 ≤ 0xFFF ∧
      ∃ t u, exec (.drw 0 1 1) (withSprite 0xC0 (regs01 1 1)) = .next t ∧ t.reg 0 = 1 ∧ t.reg 1 = 1 ∧ t.reg 0xF = 0 ∧
        exec (.drw 0 1 1) t = .next u) ∧
    ((withSprite 0xFF (regs01 63 31)).I.toNat ≤ 0xFFF ∧ (withSprite 0xFF (regs01 63 31)).reg 0 = 63 ∧
      (withSprite 0xFF (regs01 63 31)).reg 1 = 31 ∧
      (withSprite 0xFF (regs01 63 31)).mem.read (withSprite 0xFF (regs01 63 31)).I.toNat = 0xFF ∧
      ∃ t, exec (.drw 0 1 1) (withSprite 0xFF (regs01 63 31)) = .next t) :=
  ⟨⟨by decide, _, _, rfl, by decide, by decide, by decide, rfl⟩, by decide, by decide, by decide, by decide, _, rfl⟩

/-- Where R201 and R202 part (log entry 12): a first draw of one set bit over the one pixel that was on turns it off, so the
second meets no set pixel, and R201 gives VF = 0. The display is back as it was. -/
theorem witness_DrawingTwiceRestores_over_a_lit_pixel :
    ∃ t u, exec (.drw 0 1 1) { withSprite 0x80 (regs01 1 1) with fb := Framebuffer.blank.setPixel 1 1 true } = .next t ∧
      t.reg 0xF = 1 ∧ t.fb.pixel 1 1 = false ∧ exec (.drw 0 1 1) t = .next u ∧ u.reg 0xF = 0 ∧ u.fb.pixel 1 1 = true :=
  ⟨_, _, rfl, by decide, by decide, rfl, by decide, by decide⟩

theorem witness_KeySkipsTestTheKeypad :
    ((withRegs [(3, 0x0F)]).reg 3).toNat ≤ 0xF ∧ 0xF < ((withRegs [(3, 0x10)]).reg 3).toNat := by decide

theorem witness_KeyWaitEndsOnlyByPress : waiting.wait = .waitingForKey 3 := rfl

theorem witness_PressWhileRunningSetsOnlyTheKey : State.reset.wait = .running ∧ stopped.wait = .running := ⟨rfl, rfl⟩

theorem witness_ReleaseAndAcknowledge : State.reset.keyHeld 0xF = false := by decide

theorem witness_TicksCountDown : ∃ t, runEvents (List.replicate 6 .tickTimers) waiting = .next t := exists_next_of_ends (by decide)

/-- Each timer does count up in a step. -/
theorem witness_TimersCountUpOnlyByTheirLoads :
    (∃ t, applyEvent .step ((at0x200 0xF015).setReg 0 9) = .next t ∧ 0 < t.DT.toNat) ∧
    ∃ t, applyEvent .step ((at0x200 0xF018).setReg 0 9) = .next t ∧ 0 < t.ST.toNat :=
  ⟨⟨_, rfl, by decide⟩, ⟨_, rfl, by decide⟩⟩

theorem witness_LoadWritesTheRom (b : Byte) :
    3584 < (List.replicate 3585 b).length ∧ (List.replicate 3584 b).length ≤ 3584 ∧ 3583 < (List.replicate 3584 b).length := by
  simp only [List.length_replicate]
  decide

end Sys2Proof.Tests
end

section
/-! SUPPORT. The equation of each branch of the instructions whose meaning branches. -/

namespace Sys2Proof.Machine

/-- RET with no frame on the stack underflows (R110). -/
theorem exec_ret_of_empty {s : State} (h : s.SP.val = 0) :
    exec .ret s = .next (s.raise .stackUnderflow .ret) := by
  show execRet s = _
  rw [execRet, (s.pop_eq_none).2 (Fin.ext h)]

/-- RET with a frame on the stack jumps to the entry below SP (R110). -/
theorem exec_ret_of_frame {s : State} (h : s.SP.val ≠ 0) :
    exec .ret s =
      .next (({ s with SP := ⟨s.SP.val - 1, by omega⟩ } : State).jump (s.stack[s.SP.val - 1]'(by omega))) := by
  show execRet s = _
  rw [execRet, (s.pop_eq_some _ _).2 ⟨h, rfl, rfl⟩]

/-- CALL with room on the stack pushes `next` and jumps (R112). -/
theorem exec_call_of_room {s : State} (nnn : Addr12) (h : s.SP.val < 16) :
    exec (.call nnn) s =
      .next (({ s with stack := s.stack.set s.SP.val s.next, SP := ⟨s.SP.val + 1, by omega⟩ } : State).jump
        (addrOperand nnn)) := by
  show execCall nnn s = _
  rw [execCall, (s.push_eq_some _ _).2 ⟨h, rfl⟩]

/-- CALL with 16 frames on the stack overflows (R112). -/
theorem exec_call_of_full {s : State} (nnn : Addr12) (h : ¬ s.SP.val < 16) :
    exec (.call nnn) s = .next (s.raise .stackOverflow (.call nnn)) := by
  have hfull : s.SP = 16 := Fin.ext (by show s.SP.val = 16; omega)
  show execCall nnn s = _
  rw [execCall, (s.push_eq_none _).2 hfull]

/-- DRW with a sprite that passes the top of memory faults (R54, R201). -/
theorem exec_drw_of_passesTop {s : State} (x y : Reg) {n : Nibble} (h : s.spritePassesTop n = true) :
    exec (.drw x y n) s = .next (s.raise .memoryOutOfRange (.drw x y n)) := if_pos h

/-- DRW with a sprite in memory draws it and leaves the collision in VF (R201). -/
theorem exec_drw_of_fits {s : State} (x y : Reg) {n : Nibble} (h : ¬ s.spritePassesTop n = true) :
    exec (.drw x y n) s =
      .next ((({ s with fb := (s.drawSprite x y n).1, redraw := true } : State).setFlag
        (collisionFlag (s.drawSprite x y n))).advance) := if_neg h

/-- LD Vx, [I] from bytes that pass the top of memory faults (R54, R175). -/
theorem exec_ldVxMem_of_passesTop {s : State} {x : Reg} (h : s.spanPassesTop x = true) :
    exec (.ldVxMem x) s = .next (s.raise .memoryOutOfRange (.ldVxMem x)) := if_pos h

/-- LD Vx, [I] from bytes in memory loads V0 to Vx (R175). -/
theorem exec_ldVxMem_of_fits {s : State} {x : Reg} (h : ¬ s.spanPassesTop x = true) :
    exec (.ldVxMem x) s = .next (s.loadRegs x s.I.toNat).advance := if_neg h

end Sys2Proof.Machine
end

section
/-! SUPPORT. Frames: how they compose, the frame of each update of the state, and the frame of each instruction. -/

namespace Sys2Proof.Machine

variable {s t u : State} {ps qs : List Part}

/-! ### How frames compose -/

theorem Part.same_refl (p : Part) (s : State) : p.same s s := by cases p <;> rfl

theorem Part.same_trans {p : Part} (hst : p.same s t) (htu : p.same t u) : p.same s u := by
  cases p <;> exact Eq.trans htu hst

/-- A frame holds for every larger list of parts. -/
theorem unchangedBut.mono (h : unchangedBut ps s t) (hsub : ps ⊆ qs) : unchangedBut qs s t :=
  fun p hp => h p fun hmem => hp (hsub hmem)

/-- Two operations in a row change at most the parts that either changes. -/
theorem unchangedBut.trans (hst : unchangedBut ps s t) (htu : unchangedBut qs t u) : unchangedBut (qs ++ ps) s u := by
  intro p hp
  rw [List.mem_append, not_or] at hp
  exact Part.same_trans (hst p hp.2) (htu p hp.1)

/-! ### The frame of each update -/

theorem State.setReg_unchangedBut (s : State) (r : Reg) (v : Byte) : unchangedBut [.reg r] s (s.setReg r v) := by
  intro p hp
  cases p with
  | reg q =>
    have hq : q ≠ r := by simpa using hp
    exact (s.reg_setReg r q v).trans (if_neg hq)
  | _ => rfl

theorem State.jump_unchangedBut (s : State) (target : Word) : unchangedBut [.PC] s (s.jump target) := by
  intro p hp
  cases p with
  | PC => simp at hp
  | _ => rfl

theorem State.advance_unchangedBut (s : State) : unchangedBut [.PC] s s.advance := s.jump_unchangedBut s.next

theorem State.skipIf_unchangedBut (s : State) (taken : Bool) : unchangedBut [.PC] s (s.skipIf taken) :=
  s.jump_unchangedBut (if taken then s.next + 2 else s.next)

theorem State.raise_unchangedBut (s : State) (c : FaultCause) (i : Instr) : unchangedBut [.halt] s (s.raise c i) :=
  (s.raise_faultsWith c i).2

theorem State.withI_unchangedBut (s : State) (v : Word) : unchangedBut [.I] s { s with I := v } := by
  intro p hp
  cases p with
  | I => simp at hp
  | _ => rfl

theorem State.withDT_unchangedBut (s : State) (v : Byte) : unchangedBut [.DT] s { s with DT := v } := by
  intro p hp
  cases p with
  | DT => simp at hp
  | _ => rfl

theorem State.withST_unchangedBut (s : State) (v : Byte) : unchangedBut [.ST] s { s with ST := v } := by
  intro p hp
  cases p with
  | ST => simp at hp
  | _ => rfl

theorem State.withWait_unchangedBut (s : State) (w : Wait) : unchangedBut [.wait] s { s with wait := w } := by
  intro p hp
  cases p with
  | wait => simp at hp
  | _ => rfl

theorem State.drawByte_unchangedBut (s : State) : unchangedBut [.draws] s s.drawByte.2 := by
  intro p hp
  cases p with
  | draws => simp at hp
  | _ => rfl

theorem State.withSP_unchangedBut (s : State) (v : Fin 17) : unchangedBut [.SP] s { s with SP := v } := by
  intro p hp
  cases p with
  | SP => simp at hp
  | _ => rfl

/-- A change of the display, with the request to draw it. -/
theorem State.withDisplay_unchangedBut (s : State) (fb : Framebuffer) :
    unchangedBut [.display, .redraw] s { s with fb := fb, redraw := true } := by
  intro p hp
  cases p with
  | display | redraw => simp at hp
  | _ => rfl

theorem State.withStackEntry_unchangedBut (s : State) (j : Fin 16) (v : Word) :
    unchangedBut [.frame j] s { s with stack := s.stack.set j v } := by
  intro p hp
  cases p with
  | frame k =>
    have hk : j.val ≠ k.val := fun h => hp (by simp [Fin.ext h])
    exact Vector.getElem_set_ne j.isLt k.isLt hk
  | _ => rfl

theorem mem_regsThrough {x q : Reg} : Part.reg q ∈ regsThrough x ↔ q ≤ x := by simp [regsThrough]

theorem State.loadRegs_unchangedBut (s : State) (x : Reg) (a : Nat) :
    unchangedBut (regsThrough x) s (s.loadRegs x a) := by
  intro p hp
  cases p with
  | reg q =>
    have hq : ¬ q ≤ x := fun h => hp (mem_regsThrough.2 h)
    show (s.loadRegs x a).reg q = s.reg q
    rw [State.reg_loadRegs, if_neg hq]
  | _ => simp [Part.same]

theorem mem_bytesFromI {s : State} {n a : Nat} :
    Part.byte a ∈ bytesFromI s n ↔ s.I.toNat ≤ a ∧ a < s.I.toNat + n := by
  simp only [bytesFromI, List.mem_map, List.mem_range, Part.byte.injEq, State.dataAddr]
  exact ⟨by rintro ⟨k, hk, rfl⟩; omega, fun ⟨hle, hlt⟩ => ⟨a - s.I.toNat, by omega, by omega⟩⟩

/-- Bytes stored from I up (R58). -/
theorem State.writeBytes_unchangedBut (s : State) (bytes : List Byte) :
    unchangedBut (bytesFromI s bytes.length) s { s with mem := s.mem.writeBytes s.I.toNat bytes } := by
  intro p hp
  cases p with
  | byte a =>
    rw [mem_bytesFromI] at hp
    exact Memory.read_writeBytes_outside _ _ _ (by omega)
  | _ => rfl

/-! ### The frame of each shared ending -/

theorem State.finish_unchangedBut (s : State) (x : Reg) (v : Byte) :
    unchangedBut [.PC, .reg x] s (s.setReg x v).advance :=
  (s.setReg_unchangedBut x v).trans (State.advance_unchangedBut _)

theorem State.finishFlag_unchangedBut (s : State) (x : Reg) (v f : Byte) :
    unchangedBut [.PC, .reg x, .reg 0xF] s ((s.setReg x v).setFlag f).advance :=
  (((s.setReg_unchangedBut x v).trans (State.setReg_unchangedBut _ 0xF f)).trans
    (State.advance_unchangedBut _)).mono (by simp)

theorem State.finishIndex_unchangedBut (s : State) (v : Word) :
    unchangedBut [.PC, .I] s (State.advance { s with I := v }) :=
  (s.withI_unchangedBut v).trans (State.advance_unchangedBut _)

theorem State.storeAtI_frame (s : State) (i : Instr) (bytes : List Byte) (hlen : 0 < bytes.length) :
    ∃ t, s.storeAtI i bytes = .next t ∧ unchangedBut ([.PC, .halt] ++ bytesFromI s bytes.length) s t := by
  obtain ⟨-, ht⟩ | ⟨-, -, ht⟩ | ⟨-, -, ht⟩ := s.storeAtI_cases i bytes hlen
  · exact ⟨_, ht, (s.raise_unchangedBut _ i).mono (by simp)⟩
  · exact ⟨_, ht, (s.raise_unchangedBut _ i).mono (by simp)⟩
  · exact ⟨_, ht, ((s.writeBytes_unchangedBut bytes).trans (State.advance_unchangedBut _)).mono (by simp)⟩

theorem State.skipOnKey_frame (s : State) (i : Instr) (x : Reg) (held : Bool) :
    ∃ t, s.skipOnKey i x held = .next t ∧ unchangedBut [.PC, .halt] s t := by
  obtain ⟨-, ht⟩ | ⟨k, -, ht⟩ := s.skipOnKey_cases i x held
  · exact ⟨_, ht, (s.raise_unchangedBut _ i).mono (by simp)⟩
  · exact ⟨_, ht, (s.skipIf_unchangedBut _).mono (by simp)⟩

/-! ### The frame of the instructions that branch -/

theorem exec_ret_frame (s : State) : ∃ t, exec .ret s = .next t ∧ unchangedBut [.PC, .SP, .halt] s t := by
  by_cases h : s.SP.val = 0
  · exact ⟨_, exec_ret_of_empty h, (s.raise_unchangedBut _ _).mono (by simp)⟩
  · exact ⟨_, exec_ret_of_frame h,
      ((s.withSP_unchangedBut _).trans (State.jump_unchangedBut _ _)).mono (by simp)⟩

theorem exec_call_frame (nnn : Addr12) (s : State) :
    ∃ t, exec (.call nnn) s = .next t ∧ unchangedBut (s.mayWrite (.call nnn)) s t := by
  by_cases h : s.SP.val < 16
  · have hpush := ((s.withStackEntry_unchangedBut ⟨s.SP.val, h⟩ s.next).trans
      (State.withSP_unchangedBut _ ⟨s.SP.val + 1, by omega⟩)).trans (State.jump_unchangedBut _ (addrOperand nnn))
    refine ⟨_, exec_call_of_room nnn h, hpush.mono ?_⟩
    simp [State.mayWrite, h]
  · refine ⟨_, exec_call_of_full nnn h, (s.raise_unchangedBut _ _).mono ?_⟩
    simp [State.mayWrite, h]

theorem exec_drw_frame (x y : Reg) (n : Nibble) (s : State) :
    ∃ t, exec (.drw x y n) s = .next t ∧ unchangedBut [.PC, .reg 0xF, .display, .redraw, .halt] s t := by
  by_cases h : s.spritePassesTop n = true
  · exact ⟨_, exec_drw_of_passesTop x y h, (s.raise_unchangedBut _ _).mono (by simp)⟩
  · exact ⟨_, exec_drw_of_fits x y h, (((s.withDisplay_unchangedBut _).trans
      (State.setReg_unchangedBut _ 0xF _)).trans (State.advance_unchangedBut _)).mono (by simp)⟩

theorem exec_ldVxMem_frame (x : Reg) (s : State) :
    ∃ t, exec (.ldVxMem x) s = .next t ∧ unchangedBut ([.PC, .halt] ++ regsThrough x) s t := by
  by_cases h : s.spanPassesTop x = true
  · exact ⟨_, exec_ldVxMem_of_passesTop h, (s.raise_unchangedBut _ _).mono (by simp)⟩
  · exact ⟨_, exec_ldVxMem_of_fits h,
      ((s.loadRegs_unchangedBut x _).trans (State.advance_unchangedBut _)).mono (by simp)⟩

/-- Every instruction answers a next state, and changes only the parts its rule writes. -/
theorem exec_frame (i : Instr) (s : State) : ∃ t, exec i s = .next t ∧ unchangedBut (s.mayWrite i) s t := by
  cases i with
  | cls => exact ⟨_, rfl, (s.withDisplay_unchangedBut _).trans (State.advance_unchangedBut _)⟩
  | ret => exact exec_ret_frame s
  | call nnn => exact exec_call_frame nnn s
  | jp _ | jpV0 _ => exact ⟨_, rfl, s.jump_unchangedBut _⟩
  | seVxKk _ _ | sneVxKk _ _ | seVxVy _ _ | sneVxVy _ _ => exact ⟨_, rfl, s.skipIf_unchangedBut _⟩
  | ldVxKk x _ | addVxKk x _ | ldVxVy x _ | orVxVy x _ | andVxVy x _ | xorVxVy x _ | ldVxDt x =>
    exact ⟨_, rfl, s.finish_unchangedBut x _⟩
  | addVxVy x _ | subVxVy x _ | shrVx x _ | subnVxVy x _ | shlVx x _ =>
    exact ⟨_, rfl, s.finishFlag_unchangedBut x _ _⟩
  | ldINnn _ | addIVx _ | ldFVx _ => exact ⟨_, rfl, s.finishIndex_unchangedBut _⟩
  | rnd x _ => exact ⟨_, rfl, s.drawByte_unchangedBut.trans (State.finish_unchangedBut _ x _)⟩
  | drw x y n => exact exec_drw_frame x y n s
  | skp x => exact s.skipOnKey_frame (.skp x) x true
  | sknp x => exact s.skipOnKey_frame (.sknp x) x false
  | ldVxK _ => exact ⟨_, rfl, (s.withWait_unchangedBut _).trans (State.advance_unchangedBut _)⟩
  | ldDtVx _ => exact ⟨_, rfl, (s.withDT_unchangedBut _).trans (State.advance_unchangedBut _)⟩
  | ldStVx _ => exact ⟨_, rfl, (s.withST_unchangedBut _).trans (State.advance_unchangedBut _)⟩
  | ldBVx x => exact s.storeAtI_frame (.ldBVx x) (bcdDigits (s.reg x)) (by simp)
  | ldMemVx x =>
    have hlen := s.length_regsUpTo x
    have hframe := s.storeAtI_frame (.ldMemVx x) (s.regsUpTo x) (by omega)
    rwa [hlen] at hframe
  | ldVxMem x => exact exec_ldVxMem_frame x s

/-- Settles O14: the frame of the one state the instruction answers. -/
theorem instructionsWriteOnlyTheirParts : Obligations.InstructionsWriteOnlyTheirParts := by
  intro i s t h
  obtain ⟨u, hu, hframe⟩ := exec_frame i s
  obtain rfl : u = t := Host.Outcome.next.inj (hu.symm.trans h)
  exact hframe

end Sys2Proof.Machine
end

section
/-! SUPPORT. What no program sees. Two states that programs cannot tell apart differ in their hidden parts alone, and a
step computes everything else from what is visible, so it leads to two states that again differ in hidden parts alone. -/

namespace Sys2Proof.Machine

/-- The parts of a state that no program sees whole: the entries of the stack, the sound timer, how memory is listed, and
the redraw flag. -/
structure Hidden where
  stack : Vector Word 16
  ST : Byte
  mem : Memory
  redraw : Bool

/-- The state with other hidden parts. -/
def State.withHidden (s : State) (m : Hidden) : State :=
  { s with stack := m.stack, ST := m.ST, mem := m.mem, redraw := m.redraw }

/-- What a program does see of the hidden parts is as in `s`: the entries below SP, and every read of memory. -/
def Hidden.agrees (m : Hidden) (s : State) : Prop :=
  (∀ j : Fin 16, j.val < s.SP.val → m.stack[j] = s.stack[j]) ∧ ∀ a, m.mem.read a = s.mem.read a

/-- Two states no program can tell apart are one state with two choices of the hidden parts. -/
theorem State.sameForPrograms_iff (s t : State) :
    s.sameForPrograms t ↔ ∃ m : Hidden, t = s.withHidden m ∧ m.agrees s := by
  constructor
  · rintro ⟨hreg, hI, hPC, hSP, hstack, hDT, hmem, hkeypad, hfb, hwait, hhalt, hdraws⟩
    have hV : t.V = s.V := Vector.ext fun k hk => hreg ⟨k, hk⟩
    refine ⟨⟨t.stack, t.ST, t.mem, t.redraw⟩, ?_, hstack, hmem⟩
    rw [State.withHidden, ← hV, ← hI, ← hPC, ← hSP, ← hDT, ← hkeypad, ← hfb, ← hwait, ← hhalt, ← hdraws]
  · rintro ⟨m, rfl, hstack, hmem⟩
    exact ⟨fun _ => rfl, rfl, rfl, rfl, hstack, rfl, hmem, rfl, rfl, rfl, rfl, rfl⟩

/-- Both outcomes are next states, and the second is the first with other hidden parts that agree with it. -/
def sameOutcomes (o o' : Host.Outcome State Fault Refusal) : Prop :=
  ∃ (t : State) (m : Hidden), o = .next t ∧ o' = .next (t.withHidden m) ∧ m.agrees t

/-! ### What is read is the same -/

theorem Memory.readBytes_congr {m m' : Memory} (h : ∀ a, m'.read a = m.read a) (a n : Nat) :
    m'.readBytes a n = m.readBytes a n := by
  induction n generalizing a with
  | zero => rfl
  | succ n ih => rw [Memory.readBytes, Memory.readBytes, h, ih]

theorem Memory.read_writeBytes_congr {m m' : Memory} (h : ∀ a, m'.read a = m.read a) (a : Nat) (bytes : List Byte)
    (b : Nat) : (m'.writeBytes a bytes).read b = (m.writeBytes a bytes).read b := by
  rw [Memory.read_writeBytes, Memory.read_writeBytes, h]

variable {s : State} {m : Hidden} (h : m.agrees s)
include h

theorem State.drawSprite_withHidden (x y : Reg) (n : Nibble) :
    (s.withHidden m).drawSprite x y n = s.drawSprite x y n :=
  congrArg (drawRows (s.reg x).toNat (s.reg y).toNat · (s.fb, false)) (Memory.readBytes_congr h.2 _ _)

theorem State.loadRegs_withHidden (x : Reg) (a : Nat) :
    (s.withHidden m).loadRegs x a = (s.loadRegs x a).withHidden m := by
  have hread : (s.withHidden m).mem.read = s.mem.read := funext h.2
  rw [State.loadRegs, hread]
  rfl

theorem State.fetch_withHidden : (s.withHidden m).fetch = s.fetch := by
  have hword : (s.withHidden m).fetchWord = s.fetchWord := congrArg₂ wordOfBytes (h.2 _) (h.2 _)
  rw [State.fetch, hword]
  rfl

/-! ### Instructions and steps -/

theorem storeAtI_sameOutcomes (i : Instr) (bytes : List Byte) :
    sameOutcomes (s.storeAtI i bytes) ((s.withHidden m).storeAtI i bytes) := by
  by_cases htop : s.spanPassesTop (bytes.length - 1) = true
  · exact ⟨s.raise .memoryOutOfRange i, m, if_pos htop, if_pos htop, h⟩
  by_cases hres : s.spanInReserved = true
  · exact ⟨s.raise .reservedWrite i, m, (if_neg htop).trans (if_pos hres), (if_neg htop).trans (if_pos hres), h⟩
  · exact ⟨State.advance { s with mem := s.mem.writeBytes (s.dataAddr 0) bytes },
      { m with mem := m.mem.writeBytes (s.dataAddr 0) bytes },
      (if_neg htop).trans (if_neg hres), (if_neg htop).trans (if_neg hres),
      h.1, Memory.read_writeBytes_congr h.2 _ _⟩

theorem skipOnKey_sameOutcomes (i : Instr) (x : Reg) (held : Bool) :
    sameOutcomes (s.skipOnKey i x held) ((s.withHidden m).skipOnKey i x held) := by
  have hreg : (s.withHidden m).reg x = s.reg x := rfl
  unfold State.skipOnKey
  rw [hreg]
  cases keyOperand (s.reg x) with
  | none => exact ⟨_, m, rfl, rfl, h⟩
  | some k => exact ⟨_, m, rfl, rfl, h⟩

/-- RET reads the entry below SP, which is visible. -/
theorem exec_ret_sameOutcomes : sameOutcomes (exec .ret s) (exec .ret (s.withHidden m)) := by
  by_cases hSP : s.SP.val = 0
  · exact ⟨_, m, exec_ret_of_empty hSP, exec_ret_of_empty (s := s.withHidden m) hSP, h⟩
  · have hentry : m.stack[s.SP.val - 1]'(by omega) = s.stack[s.SP.val - 1]'(by omega) :=
      h.1 ⟨s.SP.val - 1, by omega⟩ (show s.SP.val - 1 < s.SP.val by omega)
    refine ⟨_, m, exec_ret_of_frame hSP, (exec_ret_of_frame (s := s.withHidden m) hSP).trans ?_, ?_, h.2⟩
    · exact congrArg (fun v => Host.Outcome.next (State.jump _ v)) hentry
    · intro j hj
      exact h.1 j (Nat.lt_of_lt_of_le hj (Nat.sub_le _ _))

/-- CALL makes one more entry visible, and has just written it. -/
theorem exec_call_sameOutcomes (nnn : Addr12) :
    sameOutcomes (exec (.call nnn) s) (exec (.call nnn) (s.withHidden m)) := by
  by_cases hSP : s.SP.val < 16
  · refine ⟨_, { m with stack := m.stack.set s.SP.val s.next }, exec_call_of_room nnn hSP,
      exec_call_of_room (s := s.withHidden m) nnn hSP, ?_, h.2⟩
    intro j hj
    have hj : j.val < s.SP.val + 1 := hj
    show (m.stack.set s.SP.val s.next)[j.val] = (s.stack.set s.SP.val s.next)[j.val]
    rw [Vector.getElem_set, Vector.getElem_set]
    split
    · rfl
    · exact h.1 j (by omega)
  · exact ⟨_, m, exec_call_of_full nnn hSP, exec_call_of_full (s := s.withHidden m) nnn hSP, h⟩

theorem exec_drw_sameOutcomes (x y : Reg) (n : Nibble) :
    sameOutcomes (exec (.drw x y n) s) (exec (.drw x y n) (s.withHidden m)) := by
  by_cases htop : s.spritePassesTop n = true
  · exact ⟨_, m, exec_drw_of_passesTop x y htop, exec_drw_of_passesTop (s := s.withHidden m) x y htop, h⟩
  · refine ⟨_, { m with redraw := true }, exec_drw_of_fits x y htop,
      (exec_drw_of_fits (s := s.withHidden m) x y htop).trans ?_, h⟩
    rw [State.drawSprite_withHidden h]
    rfl

theorem exec_ldVxMem_sameOutcomes (x : Reg) :
    sameOutcomes (exec (.ldVxMem x) s) (exec (.ldVxMem x) (s.withHidden m)) := by
  by_cases htop : s.spanPassesTop x = true
  · exact ⟨_, m, exec_ldVxMem_of_passesTop htop, exec_ldVxMem_of_passesTop (s := s.withHidden m) htop, h⟩
  · refine ⟨_, m, exec_ldVxMem_of_fits htop, (exec_ldVxMem_of_fits (s := s.withHidden m) htop).trans ?_, h⟩
    rw [State.loadRegs_withHidden h]
    rfl

/-- No instruction tells the two states apart. -/
theorem exec_sameOutcomes (i : Instr) : sameOutcomes (exec i s) (exec i (s.withHidden m)) := by
  cases i with
  | cls => exact ⟨_, { m with redraw := true }, rfl, rfl, h⟩
  | ret => exact exec_ret_sameOutcomes h
  | call nnn => exact exec_call_sameOutcomes h nnn
  | drw x y n => exact exec_drw_sameOutcomes h x y n
  | skp x => exact skipOnKey_sameOutcomes h (.skp x) x true
  | sknp x => exact skipOnKey_sameOutcomes h (.sknp x) x false
  | ldStVx x => exact ⟨_, { m with ST := s.reg x }, rfl, rfl, h⟩
  | ldBVx x => exact storeAtI_sameOutcomes h (.ldBVx x) (bcdDigits (s.reg x))
  | ldMemVx x => exact storeAtI_sameOutcomes h (.ldMemVx x) (s.regsUpTo x)
  | ldVxMem x => exact exec_ldVxMem_sameOutcomes h x
  -- The rest compute with visible values alone and leave the hidden parts as they are.
  | _ => exact ⟨_, m, rfl, rfl, h⟩

/-- No step tells the two states apart. -/
theorem step_sameOutcomes : sameOutcomes (step s) (step (s.withHidden m)) := by
  unfold step
  rw [State.fetch_withHidden h]
  cases s.fetch with
  | idle => exact ⟨s, m, rfl, rfl, h⟩
  | faulted c o => exact ⟨s.takeFault c o, m, rfl, rfl, h⟩
  | run i => exact exec_sameOutcomes h i

end Sys2Proof.Machine
end

namespace Sys2Proof.Machine

/-- Settles O15: the two states are one state with two choices of the hidden parts, and a step leads to such a pair again. -/
theorem hiddenStateIsUnobservable : Obligations.HiddenStateIsUnobservable := by
  intro s s' t t' hsame ht ht'
  obtain ⟨m, rfl, hm⟩ := (s.sameForPrograms_iff s').1 hsame
  obtain ⟨u, m', hu, hu', hm'⟩ := step_sameOutcomes hm
  obtain rfl : u = t := Host.Outcome.next.inj (hu.symm.trans ht)
  obtain rfl : u.withHidden m' = t' := Host.Outcome.next.inj (hu'.symm.trans ht')
  exact (u.sameForPrograms_iff _).2 ⟨m', rfl, hm'⟩

end Sys2Proof.Machine

section
/-! SUPPORT. Memory at creation, and the values of every piece of state there. -/

namespace Sys2Proof.Machine

/-- The font stands at its base (R51). -/
theorem createdByte_font {base : Nat} (hbase : base + 80 ≤ romBase) (font : Vector Byte 80) (k : Fin 80) :
    createdByte base font (base + k.val) = font[k] := by
  have hk := k.isLt
  rw [createdByte, if_neg (by omega), dif_pos ⟨by omega, by omega⟩]
  simp

/-- Outside the font memory is 0x00 at creation (R34). -/
theorem createdByte_outside_font {base : Nat} (font : Vector Byte 80) {a : Nat} (ha : a < base ∨ base + 80 ≤ a) :
    createdByte base font a = 0x00 := by
  rw [createdByte]
  split
  · rfl
  · exact dif_neg (by omega)

/-- The font lies in the reserved region (R9, D1). -/
theorem fontBase_add_le_romBase : Config.fontBase.val + 80 ≤ romBase := by
  have hbase := Config.fontBase.isLt
  unfold romBase
  omega

theorem State.reset_reg (r : Reg) : State.reset.reg r = 0x00 := Vector.getElem_replicate r.isLt

theorem State.reset_stack (j : Fin 16) : State.reset.stack[j] = 0x0000 := Vector.getElem_replicate j.isLt

/-- Memory at creation: what every address reads as where nothing is listed (R36). -/
theorem State.reset_read (a : Nat) :
    State.reset.mem.read a = createdByte Config.fontBase.val Config.font a := rfl

/-- Settles O16: each value by its own lemma, or by the definition of the state at creation. -/
theorem resetValues : Obligations.ResetValues := by
  refine ⟨State.reset_reg, rfl, rfl, rfl, State.reset_stack, rfl, rfl, ?font, ?zero, rfl,
    Framebuffer.pixel_blank, rfl, rfl, rfl⟩
  case font => exact fun k => createdByte_font fontBase_add_le_romBase Config.font k
  case zero => exact fun _ _ ha => createdByte_outside_font Config.font ha

end Sys2Proof.Machine
end

section
/-! SUPPORT. A store is seen by a fetch: the fetched word holds the bytes of memory at PC, and memory after a store holds
the bytes stored. -/

namespace Sys2Proof.Machine

/-- A fetch sees at every address the byte that memory holds there (R55). -/
theorem State.fetchSees_read (s : State) (a : Nat) : s.fetchSees a (s.mem.read a).toNat := by
  have hword := s.fetchWord_toNat
  have hlow := (s.mem.read (s.PC.toNat + 1)).isLt
  constructor
  · rintro rfl
    omega
  · rintro rfl
    omega

/-- After a write of a sequence each of its bytes stands at its place. -/
theorem Memory.read_writeBytes_at (m : Memory) (a : Nat) (bytes : List Byte) (k : Nat) (hk : k < bytes.length) :
    (m.writeBytes a bytes).read (a + k) = bytes[k] := by
  simp [Memory.read_writeBytes, hk]

/-- A fetch from memory that a sequence of bytes was written to sees each of them. -/
theorem State.fetchSees_of_writeBytes {u : State} {m : Memory} {a : Nat} {bytes : List Byte}
    (hmem : u.mem = m.writeBytes a bytes) (k : Nat) (hk : k < bytes.length) : u.fetchSees (a + k) bytes[k].toNat := by
  rw [← m.read_writeBytes_at a bytes k hk, ← hmem]
  exact u.fetchSees_read (a + k)

/-- A store whose whole span lies in program memory does not fault (R53, R54). -/
theorem State.storeAtI_of_fits {s : State} (i : Instr) {bytes : List Byte} (hlen : 0 < bytes.length)
    (hlow : 0x200 ≤ s.I.toNat) (htop : s.I.toNat + bytes.length ≤ 0x1000) :
    s.storeAtI i bytes = .next (State.advance { s with mem := s.mem.writeBytes s.I.toNat bytes }) := by
  obtain ⟨hpast, -⟩ | ⟨-, hres, -⟩ | ⟨-, -, heq⟩ := s.storeAtI_cases i bytes hlen
  · omega
  · omega
  · exact heq

/-- The bytes of a store that does not fault are seen by every fetch from the memory it leaves. -/
theorem State.fetchSees_of_storeAtI {s t u : State} {i : Instr} {bytes : List Byte} (hlow : 0x200 ≤ s.I.toNat)
    (htop : s.I.toNat + bytes.length ≤ 0x1000) (ht : s.storeAtI i bytes = .next t) (hmem : u.mem = t.mem)
    (k : Nat) (hk : k < bytes.length) : u.fetchSees (s.I.toNat + k) bytes[k].toNat := by
  obtain rfl := Host.Outcome.next.inj ((State.storeAtI_of_fits i (by omega) hlow htop).symm.trans ht)
  exact State.fetchSees_of_writeBytes hmem k hk

/-- A ROM that fits is written from 0x200 up (R321). -/
theorem State.load_of_fits {s : State} {bytes : List Byte} (h : bytes.length ≤ romMax) :
    s.load bytes = (.ok, { s with mem := s.mem.writeBytes romBase bytes }) := if_neg (by omega)

/-- A ROM that does not fit changes nothing (R321). -/
theorem State.load_of_tooLong {s : State} {bytes : List Byte} (h : romMax < bytes.length) :
    s.load bytes = (.rejected, s) := if_pos h

/-- The digits of a byte as numbers, hundreds first (R173). -/
theorem bcdDigits_toNat (v : Byte) :
    (bcdDigits v)[0].toNat = v.toNat / 100 ∧ (bcdDigits v)[1].toNat = v.toNat / 10 % 10 ∧
      (bcdDigits v)[2].toNat = v.toNat % 10 := by
  have hv := v.isLt
  simp only [bcdDigits, List.getElem_cons_zero, List.getElem_cons_succ, BitVec.toNat_ofNat]
  omega

/-- Settles O37: all three writers write a sequence of bytes, and a fetch sees what memory holds. -/
theorem storesAreSeenByFetch : Obligations.StoresAreSeenByFetch := by
  refine ⟨?block, ?bcd, ?rom⟩
  case block =>
    intro s t u x hlow htop ht hmem k hk
    have hlen := s.length_regsUpTo x
    have hkx : k.val ≤ x.val := hk
    have hsees := State.fetchSees_of_storeAtI (bytes := s.regsUpTo x) hlow (by omega) ht hmem k (by omega)
    rwa [s.getElem_regsUpTo] at hsees
  case bcd =>
    intro s t u x hlow htop ht hmem
    have hsees := State.fetchSees_of_storeAtI (bytes := bcdDigits (s.reg x)) hlow (Nat.succ_le_succ htop) ht hmem
    obtain ⟨hhundreds, htens, hones⟩ := bcdDigits_toNat (s.reg x)
    rw [← hhundreds, ← htens, ← hones]
    exact ⟨hsees 0 (by simp), hsees 1 (by simp), hsees 2 (by simp)⟩
  case rom =>
    intro s u bytes hlen hmem k hk
    rw [State.load_of_fits hlen] at hmem
    exact State.fetchSees_of_writeBytes hmem k hk

end Sys2Proof.Machine
end

section
/-! SUPPORT. What an event can do. An instruction faults or completes, an operation of the host changes little, and in
every case memory is written in program memory alone. -/

namespace Sys2Proof.Machine

/-! ### Writes in program memory -/

/-- The second memory is the first with some bytes, perhaps none, written in program memory (R51). -/
def programWrite (m m' : Memory) : Prop :=
  ∃ a bytes, romBase ≤ a ∧ a + bytes.length ≤ memSize ∧ m' = m.writeBytes a bytes

theorem programWrite_refl (m : Memory) : programWrite m m := ⟨romBase, [], le_rfl, by decide, rfl⟩

/-- A write in program memory keeps the canonical form. -/
theorem programWrite.wf {m m' : Memory} (h : programWrite m m') (hm : m.wf) : m'.wf := by
  obtain ⟨a, bytes, -, htop, rfl⟩ := h
  exact Memory.wf_writeBytes hm htop

/-- A write in program memory leaves the reserved region alone (R53). -/
theorem programWrite.read_reserved {m m' : Memory} (h : programWrite m m') {b : Nat} (hb : b < romBase) :
    m'.read b = m.read b := by
  obtain ⟨a, bytes, hlow, -, rfl⟩ := h
  exact Memory.read_writeBytes_outside m a bytes (.inl (by omega))

/-! ### Instructions -/

/-- What an instruction without a fault leaves: the halt latch as it was, memory but for program memory, and on the
stack only frames that were there and the address after the instruction. -/
structure Completes (s t : State) : Prop where
  halt : t.halt = s.halt
  mem : programWrite s.mem t.mem
  frames : ∀ j : Fin 16, j.val < t.SP.val → (j.val < s.SP.val ∧ t.stack[j] = s.stack[j]) ∨ t.stack[j] = s.next

/-- An instruction that writes neither the latch, memory nor the stack completes. -/
theorem completes_of_eq {s t : State} (hhalt : t.halt = s.halt) (hmem : t.mem = s.mem) (hSP : t.SP = s.SP)
    (hstack : t.stack = s.stack) : Completes s t where
  halt := hhalt
  mem := hmem ▸ programWrite_refl s.mem
  frames := fun j hj => .inl ⟨hSP ▸ hj, by rw [hstack]⟩

/-- The instruction faults, with a cause that is not one of the fetch (R300), or completes. -/
def faultsOrCompletes (i : Instr) (s : State) (o : Host.Outcome State Fault Refusal) : Prop :=
  (∃ c, c ≠ .fetchOutOfRange ∧ c ≠ .misalignedFetch ∧ o = .next (s.raise c i)) ∨ ∃ t, o = .next t ∧ Completes s t

/-- A store writes bytes from I up only where they lie in program memory (R53, R54). -/
theorem storeAtI_faultsOrCompletes (s : State) (i : Instr) (bytes : List Byte) (hlen : 0 < bytes.length) :
    faultsOrCompletes i s (s.storeAtI i bytes) := by
  obtain ⟨-, ht⟩ | ⟨-, -, ht⟩ | ⟨htop, hlow, ht⟩ := s.storeAtI_cases i bytes hlen
  · exact .inl ⟨.memoryOutOfRange, nofun, nofun, ht⟩
  · exact .inl ⟨.reservedWrite, nofun, nofun, ht⟩
  · exact .inr ⟨_, ht, rfl, ⟨s.I.toNat, bytes, hlow, htop, rfl⟩, fun j hj => .inl ⟨hj, rfl⟩⟩

theorem skipOnKey_faultsOrCompletes (s : State) (i : Instr) (x : Reg) (held : Bool) :
    faultsOrCompletes i s (s.skipOnKey i x held) := by
  obtain ⟨-, ht⟩ | ⟨k, -, ht⟩ := s.skipOnKey_cases i x held
  · exact .inl ⟨.keyOutOfRange, nofun, nofun, ht⟩
  · exact .inr ⟨_, ht, completes_of_eq rfl rfl rfl rfl⟩

/-- RET leaves fewer frames (R110). -/
theorem exec_ret_faultsOrCompletes (s : State) : faultsOrCompletes .ret s (exec .ret s) := by
  by_cases hSP : s.SP.val = 0
  · exact .inl ⟨.stackUnderflow, nofun, nofun, exec_ret_of_empty hSP⟩
  · exact .inr ⟨_, exec_ret_of_frame hSP, rfl, programWrite_refl s.mem,
      fun j hj => .inl ⟨Nat.lt_of_lt_of_le hj (Nat.sub_le _ _), rfl⟩⟩

/-- CALL adds the frame `next` and keeps those below it (R112). -/
theorem exec_call_faultsOrCompletes (nnn : Addr12) (s : State) :
    faultsOrCompletes (.call nnn) s (exec (.call nnn) s) := by
  by_cases hSP : s.SP.val < 16
  · refine .inr ⟨_, exec_call_of_room nnn hSP, rfl, programWrite_refl s.mem, fun j hj => ?_⟩
    have hj : j.val < s.SP.val + 1 := hj
    by_cases hnew : s.SP.val = j.val
    · exact .inr (by simp [hnew])
    · exact .inl ⟨by omega, Vector.getElem_set_ne hSP j.isLt hnew⟩
  · exact .inl ⟨.stackOverflow, nofun, nofun, exec_call_of_full nnn hSP⟩

theorem exec_drw_faultsOrCompletes (x y : Reg) (n : Nibble) (s : State) :
    faultsOrCompletes (.drw x y n) s (exec (.drw x y n) s) := by
  by_cases htop : s.spritePassesTop n = true
  · exact .inl ⟨.memoryOutOfRange, nofun, nofun, exec_drw_of_passesTop x y htop⟩
  · exact .inr ⟨_, exec_drw_of_fits x y htop, completes_of_eq rfl rfl rfl rfl⟩

theorem exec_ldVxMem_faultsOrCompletes (x : Reg) (s : State) :
    faultsOrCompletes (.ldVxMem x) s (exec (.ldVxMem x) s) := by
  by_cases htop : s.spanPassesTop x = true
  · exact .inl ⟨.memoryOutOfRange, nofun, nofun, exec_ldVxMem_of_passesTop htop⟩
  · exact .inr ⟨_, exec_ldVxMem_of_fits htop, completes_of_eq (by simp) (by simp) (by simp) (by simp)⟩

/-- Every instruction faults or completes. -/
theorem exec_faultsOrCompletes (i : Instr) (s : State) : faultsOrCompletes i s (exec i s) := by
  cases i with
  | ret => exact exec_ret_faultsOrCompletes s
  | call nnn => exact exec_call_faultsOrCompletes nnn s
  | drw x y n => exact exec_drw_faultsOrCompletes x y n s
  | skp x => exact skipOnKey_faultsOrCompletes s (.skp x) x true
  | sknp x => exact skipOnKey_faultsOrCompletes s (.sknp x) x false
  | ldBVx x => exact storeAtI_faultsOrCompletes s (.ldBVx x) (bcdDigits (s.reg x)) (by simp)
  | ldMemVx x => exact storeAtI_faultsOrCompletes s (.ldMemVx x) (s.regsUpTo x) (by simp)
  | ldVxMem x => exact exec_ldVxMem_faultsOrCompletes x s
  -- The rest write neither the latch, memory nor the stack.
  | _ => exact .inr ⟨_, rfl, completes_of_eq rfl rfl rfl rfl⟩

/-! ### Steps and operations of the host -/

/-- A record of a failed fetch check has no opcode (R301). -/
theorem opcodeFits_of_checkFetch {pc : Word} {c : FaultCause} (h : checkFetch pc = some c) :
    FaultRecord.opcodeFits ⟨c, pc, none⟩ := by
  obtain hnone | hcause | hcause := checkFetch_cases pc
  · exact absurd (hnone.symm.trans h) nofun
  · exact iff_of_true rfl (.inr (Option.some.inj (h.symm.trans hcause)))
  · exact iff_of_true rfl (.inl (Option.some.inj (h.symm.trans hcause)))

/-- A record of a later fault has the fetched word (R301). -/
theorem opcodeFits_of_word {c : FaultCause} (hrange : c ≠ .fetchOutOfRange) (halign : c ≠ .misalignedFetch)
    (pc w : Word) : FaultRecord.opcodeFits ⟨c, pc, some w⟩ :=
  iff_of_false nofun (not_or.2 ⟨hrange, halign⟩)

/-- What a step can do: nothing, a fault with a record that fits, or the instruction at PC completes (R100, R301). -/
theorem step_effect (s : State) :
    step s = .next s ∨
    (s.active ∧ ∃ c o, FaultRecord.opcodeFits ⟨c, s.PC, o⟩ ∧ step s = .next (s.takeFault c o)) ∨
    (s.active ∧ fetchable s.PC ∧ ∃ t, step s = .next t ∧ Completes s t) := by
  obtain ⟨-, hstep⟩ | ⟨hact, c, hc, hstep⟩ | ⟨hact, -, -, hstep⟩ | ⟨hact, hPC, i, -, hstep⟩ := step_cases s
  · exact .inl hstep
  · exact .inr (.inl ⟨hact, c, none, opcodeFits_of_checkFetch hc, hstep⟩)
  · exact .inr (.inl ⟨hact, .decodeError, _, opcodeFits_of_word (c := .decodeError) nofun nofun _ _, hstep⟩)
  · obtain ⟨c, hrange, halign, hexec⟩ | ⟨t, hexec, ht⟩ := exec_faultsOrCompletes i s
    · exact .inr (.inl ⟨hact, c, _, opcodeFits_of_word hrange halign _ _, hstep.trans hexec⟩)
    · exact .inr (.inr ⟨hact, hPC, t, hstep.trans hexec, ht⟩)

/-- What an operation of the host leaves: PC, the stack and the halt latch as they were, memory but for program memory,
and no wait that was not there. -/
structure HostActs (s t : State) : Prop where
  PC : t.PC = s.PC
  SP : t.SP = s.SP
  stack : t.stack = s.stack
  halt : t.halt = s.halt
  mem : programWrite s.mem t.mem
  wait : t.wait = s.wait ∨ t.wait = .running

/-- A load writes its bytes where program memory begins, or nothing (R321). -/
theorem State.load_hostActs (s : State) (bytes : List Byte) : HostActs s (s.load bytes).2 := by
  by_cases hlen : bytes.length ≤ romMax
  · rw [State.load_of_fits hlen]
    exact ⟨rfl, rfl, rfl, rfl, ⟨romBase, bytes, le_rfl, Nat.add_le_add_left hlen romBase, rfl⟩, .inl rfl⟩
  · rw [State.load_of_tooLong (by omega)]
    exact ⟨rfl, rfl, rfl, rfl, programWrite_refl s.mem, .inl rfl⟩

/-- A press ends a wait and begins none (R226). -/
theorem State.setKey_hostActs (s : State) (k : Fin 16) : HostActs s (s.setKey k) := by
  unfold State.setKey State.deliverKey
  split
  · exact ⟨rfl, rfl, rfl, rfl, programWrite_refl s.mem, .inl rfl⟩
  · exact ⟨rfl, rfl, rfl, rfl, programWrite_refl s.mem, .inr rfl⟩

/-- Every event is a step or an operation of the host. -/
theorem applyEvent_cases (e : Event) (s : State) :
    e = .step ∨ ∃ t, applyEvent e s = .next t ∧ HostActs s t := by
  cases e with
  | step => exact .inl rfl
  | load bytes => exact .inr ⟨_, rfl, s.load_hostActs bytes⟩
  | setKey k => exact .inr ⟨_, rfl, s.setKey_hostActs k⟩
  | releaseKey _ | tickTimers | ackRedraw =>
    exact .inr ⟨_, rfl, rfl, rfl, rfl, rfl, programWrite_refl s.mem, .inl rfl⟩

/-- No event writes memory outside program memory. -/
theorem applyEvent_programWrite {e : Event} {s t : State} (h : applyEvent e s = .next t) :
    programWrite s.mem t.mem := by
  obtain rfl | ⟨u, hu, hacts⟩ := applyEvent_cases e s
  · obtain hu | ⟨-, c, o, -, hu⟩ | ⟨-, -, u, hu, hcomp⟩ := step_effect s
    · exact Host.Outcome.next.inj (hu.symm.trans h) ▸ programWrite_refl s.mem
    · exact Host.Outcome.next.inj (hu.symm.trans h) ▸ programWrite_refl s.mem
    · exact Host.Outcome.next.inj (hu.symm.trans h) ▸ hcomp.mem
  · exact Host.Outcome.next.inj (hu.symm.trans h) ▸ hacts.mem

/-! ### Runs -/

/-- A run of a first event and the rest goes through the state after the event (R60). -/
theorem runEvents_cons {e : Event} {rest : List Event} {s t : State} (h : runEvents (e :: rest) s = .next t) :
    ∃ u, applyEvent e s = .next u ∧ runEvents rest u = .next t := by
  unfold runEvents at h
  split at h
  next u hu => exact ⟨u, hu, h⟩
  next => cases h
  next => cases h

/-- A property that every event keeps holds after every run from a state that has it. -/
theorem runEvents_keeps {P : State → Prop} (hevent : ∀ e s t, P s → applyEvent e s = .next t → P t)
    {events : List Event} {s t : State} (hs : P s) (h : runEvents events s = .next t) : P t := by
  induction events generalizing s with
  | nil => exact Host.Outcome.next.inj h ▸ hs
  | cons e rest ih =>
    obtain ⟨u, hu, hrest⟩ := runEvents_cons h
    exact ih (hevent e s u hs hu) hrest

/-- Settles O20: no event writes the reserved region, by induction on the events. -/
theorem reservedRegionNeverChanges : Obligations.ReservedRegionNeverChanges := by
  intro events s t h a ha
  refine runEvents_keeps (P := fun u => u.mem.read a = s.mem.read a) ?_ rfl h
  intro e u v hu hv
  exact ((applyEvent_programWrite hv).read_reserved ha).trans hu

end Sys2Proof.Machine
end

section
/-! SUPPORT. The invariant of the machine is kept by each thing an event can do. -/

namespace Sys2Proof.Machine

variable {s t : State}

/-- The address after an instruction that was fetched is a return address (R101, R112). -/
theorem returnAddress_next (h : fetchable s.PC) : returnAddress s.next := by
  have hnext : s.next.toNat = s.PC.toNat + 2 := advancesBy_of_next (t := s.advance) rfl h
  obtain ⟨heven, htop⟩ := h
  exact ⟨by omega, by omega, by omega⟩

/-- A fault taken by an active core keeps the invariant when its record fits (R301, R302). -/
theorem State.Inv.of_takeFault (h : s.Inv) (hact : s.active) {c : FaultCause} {o : Option Word}
    (hfits : FaultRecord.opcodeFits ⟨c, s.PC, o⟩) : (s.takeFault c o).Inv where
  memWf := h.memWf
  reservedIntact := h.reservedIntact
  frames := h.frames
  waitOrHalt := .inr hact.2
  recordFits := by
    intro r hr
    obtain rfl := Option.some.inj hr
    exact ⟨rfl, hfits⟩

/-- An instruction that an active core fetched keeps the invariant when it completes. -/
theorem State.Inv.of_completes (h : s.Inv) (hact : s.active) (hPC : fetchable s.PC) (ht : Completes s t) : t.Inv where
  memWf := ht.mem.wf h.memWf
  reservedIntact := fun a ha => (ht.mem.read_reserved ha).trans (h.reservedIntact a ha)
  frames := by
    intro j hj
    obtain ⟨hold, heq⟩ | hnew := ht.frames j hj
    · exact heq ▸ h.frames j hold
    · exact hnew ▸ returnAddress_next hPC
  waitOrHalt := .inl (ht.halt.trans hact.1)
  recordFits := fun r hr => by simp [ht.halt, hact.1] at hr

/-- An operation of the host keeps the invariant. -/
theorem State.Inv.of_hostActs (h : s.Inv) (ht : HostActs s t) : t.Inv where
  memWf := ht.mem.wf h.memWf
  reservedIntact := fun a ha => (ht.mem.read_reserved ha).trans (h.reservedIntact a ha)
  frames := by
    rw [ht.SP, ht.stack]
    exact h.frames
  waitOrHalt := by
    rw [ht.halt]
    obtain hwait | hwait := ht.wait
    · exact hwait ▸ h.waitOrHalt
    · exact .inr hwait
  recordFits := by
    rw [ht.halt, ht.PC]
    exact h.recordFits

/-- A step keeps the invariant. -/
theorem State.Inv.of_step (h : s.Inv) (hstep : step s = .next t) : t.Inv := by
  obtain hu | ⟨hact, c, o, hfits, hu⟩ | ⟨hact, hPC, u, hu, hcomp⟩ := step_effect s
  · exact Host.Outcome.next.inj (hu.symm.trans hstep) ▸ h
  · exact Host.Outcome.next.inj (hu.symm.trans hstep) ▸ h.of_takeFault hact hfits
  · exact Host.Outcome.next.inj (hu.symm.trans hstep) ▸ h.of_completes hact hPC hcomp

/-- An event keeps the invariant. -/
theorem State.Inv.of_event {e : Event} (h : s.Inv) (he : applyEvent e s = .next t) : t.Inv := by
  obtain rfl | ⟨u, hu, hacts⟩ := applyEvent_cases e s
  · exact h.of_step he
  · exact Host.Outcome.next.inj (hu.symm.trans he) ▸ h.of_hostActs hacts

end Sys2Proof.Machine
end

namespace Sys2Proof.Machine

/-- Settles O19: every event keeps the invariant, by induction on the events. -/
theorem everyInterleavingKeepsInvariant : Obligations.EveryInterleavingKeepsInvariant := by
  intro events s t hs h
  exact runEvents_keeps (fun _ _ _ hu he => hu.of_event he) hs h

end Sys2Proof.Machine

section
/-! SUPPORT. The fields of the formats (R72, R73), and the three facts that tie the decoder of R74, the encoder of R73 and
the illegal words of R76: an encoded instruction decodes to itself; a word that decodes is the encoding of what it decodes
to; a word is refused exactly when it is illegal. -/

namespace Sys2Proof

/-! ### The fields of each format are its operands -/

@[simp] theorem fieldFamily_formatA (o : Nibble) (nnn : Addr12) : fieldFamily (formatA o nnn) = o := by
  apply BitVec.eq_of_toNat_eq
  rw [fieldFamily_toNat, formatA_toNat]
  omega

@[simp] theorem fieldNnn_formatA (o : Nibble) (nnn : Addr12) : fieldNnn (formatA o nnn) = nnn := by
  apply BitVec.eq_of_toNat_eq
  rw [fieldNnn_toNat, formatA_toNat]
  omega

section XK
variable (o : Nibble) (x : Reg) (kk : Byte)

@[simp] theorem fieldFamily_formatXK : fieldFamily (formatXK o x kk) = o := by
  apply BitVec.eq_of_toNat_eq
  rw [fieldFamily_toNat, formatXK_toNat]
  omega

@[simp] theorem fieldX_formatXK : fieldX (formatXK o x kk) = x := by
  apply Fin.ext
  rw [fieldX_val, formatXK_toNat]
  omega

@[simp] theorem fieldKk_formatXK : fieldKk (formatXK o x kk) = kk := by
  apply BitVec.eq_of_toNat_eq
  rw [fieldKk_toNat, formatXK_toNat]
  omega

end XK

section XYN
variable (o : Nibble) (x y : Reg) (n : Nibble)

@[simp] theorem fieldFamily_formatXYN : fieldFamily (formatXYN o x y n) = o := by
  apply BitVec.eq_of_toNat_eq
  rw [fieldFamily_toNat, formatXYN_toNat]
  omega

@[simp] theorem fieldX_formatXYN : fieldX (formatXYN o x y n) = x := by
  apply Fin.ext
  rw [fieldX_val, formatXYN_toNat]
  omega

@[simp] theorem fieldY_formatXYN : fieldY (formatXYN o x y n) = y := by
  apply Fin.ext
  rw [fieldY_val, formatXYN_toNat]
  omega

@[simp] theorem fieldN_formatXYN : fieldN (formatXYN o x y n) = n := by
  apply BitVec.eq_of_toNat_eq
  rw [fieldN_toNat, formatXYN_toNat]
  omega

end XYN

/-! ### A word is each format of its own fields -/

section OfFields
variable {w : Word} {o n : Nibble} {kk : Byte}

theorem formatA_of_fields (ho : fieldFamily w = o) : formatA o (fieldNnn w) = w := by
  subst ho
  apply BitVec.eq_of_toNat_eq
  rw [formatA_toNat, fieldFamily_toNat, fieldNnn_toNat]
  omega

theorem formatXK_of_fields (ho : fieldFamily w = o) (hk : fieldKk w = kk) : formatXK o (fieldX w) kk = w := by
  subst ho hk
  apply BitVec.eq_of_toNat_eq
  rw [formatXK_toNat, fieldFamily_toNat, fieldX_val, fieldKk_toNat]
  omega

theorem formatXYN_of_fields (ho : fieldFamily w = o) (hn : fieldN w = n) :
    formatXYN o (fieldX w) (fieldY w) n = w := by
  subst ho hn
  apply BitVec.eq_of_toNat_eq
  rw [formatXYN_toNat, fieldFamily_toNat, fieldX_val, fieldY_val, fieldN_toNat]
  omega

end OfFields

/-! ### The bytes of a word (R55, R70) -/

theorem wordOfBytes_bytesOfWord (w : Word) : wordOfBytes (w.extractLsb' 8 8) (w.extractLsb' 0 8) = w := by
  apply BitVec.eq_of_toNat_eq
  rw [wordOfBytes, toNat_append_eq, BitVec.extractLsb'_toNat, BitVec.extractLsb'_toNat]
  simp only [Nat.shiftRight_eq_div_pow]
  omega

/-- The decoder on bytes takes the two of the word and gives back the rest (R70). -/
theorem decodeBytes_bytesOfWord_append (w : Word) (rest : List Byte) :
    decodeBytes (bytesOfWord w ++ rest) = (decode w).map (·, rest) := by
  show (decode (wordOfBytes _ _)).map (·, rest) = _
  rw [wordOfBytes_bytesOfWord]

/-! ### The decoder after the encoder -/

/-- The decoder finds in an instruction's word the family and the sub-opcode of its arm, and there the operands. -/
theorem decode_encode (i : Instr) : decode (encode i) = .ok i := by
  cases i
  case cls | ret => rfl
  all_goals simp [encode, decode, decodeAlu, decodeKey, decodeMisc]

/-! ### The encoder after the decoder -/

/-- The six rows of R76, in the fields of R72. -/
def illegal (w : Word) : Prop :=
  (fieldFamily w = 0x0 ∧ w ≠ 0x00E0 ∧ w ≠ 0x00EE) ∨
  (fieldFamily w = 0x5 ∧ fieldN w ≠ 0) ∨
  (fieldFamily w = 0x8 ∧ fieldN w ∉ [0x0#4, 0x1#4, 0x2#4, 0x3#4, 0x4#4, 0x5#4, 0x6#4, 0x7#4, 0xE#4]) ∨
  (fieldFamily w = 0x9 ∧ fieldN w ≠ 0) ∨
  (fieldFamily w = 0xE ∧ fieldKk w ∉ [0x9E#8, 0xA1#8]) ∨
  (fieldFamily w = 0xF ∧ fieldKk w ∉ [0x07#8, 0x0A#8, 0x15#8, 0x18#8, 0x1E#8, 0x29#8, 0x33#8, 0x55#8, 0x65#8])

/-- The rows of R76 in the fields are its rows in the number. -/
theorem illegal_iff (w : Word) : illegal w ↔
      (w.toNat / 0x1000 = 0x0 ∧ w.toNat ≠ 0x00E0 ∧ w.toNat ≠ 0x00EE) ∨
      (w.toNat / 0x1000 = 0x5 ∧ w.toNat % 0x10 ≠ 0) ∨
      (w.toNat / 0x1000 = 0x8 ∧ w.toNat % 0x10 ∈ [0x8, 0x9, 0xA, 0xB, 0xC, 0xD, 0xF]) ∨
      (w.toNat / 0x1000 = 0x9 ∧ w.toNat % 0x10 ≠ 0) ∨
      (w.toNat / 0x1000 = 0xE ∧ w.toNat % 0x100 ∉ [0x9E, 0xA1]) ∨
      (w.toNat / 0x1000 = 0xF ∧ w.toNat % 0x100 ∉ [0x07, 0x0A, 0x15, 0x18, 0x1E, 0x29, 0x33, 0x55, 0x65]) := by
  simp only [illegal, ne_eq, List.mem_cons, List.not_mem_nil, or_false, not_or, ← BitVec.toNat_inj,
    fieldFamily_toNat, fieldN_toNat, fieldKk_toNat, BitVec.toNat_ofNat, BitVec.ofNat_eq_ofNat, Nat.reduceMod, Nat.reducePow]
  omega

/-- The answers a decoder may give for `w`: an instruction that encodes to it, where `w` is legal, or a refusal that names
it, where it is not. -/
def soundAnswer (w : Word) (answer : Except DecodeError Instr) : Prop :=
  (∃ i, answer = .ok i ∧ encode i = w ∧ ¬ illegal w) ∨ (answer = .error (.illegalWord w) ∧ illegal w)

section Decoder
variable {w : Word}

theorem soundAnswer_ok {i : Instr} (hw : encode i = w) (hlegal : ¬ illegal w) : soundAnswer w (.ok i) :=
  .inl ⟨i, rfl, hw, hlegal⟩

theorem soundAnswer_error (h : illegal w) : soundAnswer w (.error (.illegalWord w)) := .inr ⟨rfl, h⟩

theorem soundAnswer_decodeAlu (hf : fieldFamily w = 0x8) : soundAnswer w (decodeAlu w) := by
  unfold decodeAlu
  split
  case h_10 => exact soundAnswer_error (by simp_all [illegal])
  all_goals exact soundAnswer_ok (formatXYN_of_fields hf ‹_›) (by simp [illegal, *])

theorem soundAnswer_decodeKey (hf : fieldFamily w = 0xE) : soundAnswer w (decodeKey w) := by
  unfold decodeKey
  split
  case h_3 => exact soundAnswer_error (by simp_all [illegal])
  all_goals exact soundAnswer_ok (formatXK_of_fields hf ‹_›) (by simp [illegal, *])

theorem soundAnswer_decodeMisc (hf : fieldFamily w = 0xF) : soundAnswer w (decodeMisc w) := by
  unfold decodeMisc
  split
  case h_10 => exact soundAnswer_error (by simp_all [illegal])
  all_goals exact soundAnswer_ok (formatXK_of_fields hf ‹_›) (by simp [illegal, *])

/-- Every arm of R74 takes a word apart into the fields the encoder's format puts together, or refuses a row of R76.
The case `h_k` of the split is family `k - 1`. -/
theorem soundAnswer_decode (w : Word) : soundAnswer w (decode w) := by
  unfold decode
  split
  case h_1 hf =>
    split
    case isTrue hw => exact hw ▸ soundAnswer_ok rfl (by unfold illegal; decide)
    split
    case isTrue hw => exact hw ▸ soundAnswer_ok rfl (by unfold illegal; decide)
    case isFalse hcls hret => exact soundAnswer_error (.inl ⟨hf, hcls, hret⟩)
  case h_2 hf | h_3 hf | h_11 hf | h_12 hf => exact soundAnswer_ok (formatA_of_fields hf) (by simp [illegal, hf])
  case h_6 hf =>
    split
    case isTrue hn => exact soundAnswer_ok (formatXYN_of_fields hf hn) (by simp [illegal, hf, hn])
    case isFalse hn => exact soundAnswer_error (.inr (.inl ⟨hf, hn⟩))
  case h_9 hf => exact soundAnswer_decodeAlu hf
  case h_10 hf =>
    split
    case isTrue hn => exact soundAnswer_ok (formatXYN_of_fields hf hn) (by simp [illegal, hf, hn])
    case isFalse hn => exact soundAnswer_error (.inr (.inr (.inr (.inl ⟨hf, hn⟩))))
  case h_14 hf => exact soundAnswer_ok (formatXYN_of_fields hf rfl) (by simp [illegal, hf])
  case h_15 hf => exact soundAnswer_decodeKey hf
  case h_16 =>
    -- The last arm has no nibble of its own: 0xF is the one the fifteen others leave.
    simp only [imp_false] at *
    exact soundAnswer_decodeMisc (by bv_omega)
  case h_4 hf | h_5 hf | h_7 hf | h_8 hf | h_13 hf =>
    exact soundAnswer_ok (formatXK_of_fields hf rfl) (by simp [illegal, hf])

end Decoder

/-- A word that decodes is the encoding of what it decodes to. -/
theorem encode_of_decode {w : Word} {i : Instr} (h : decode w = .ok i) : encode i = w := by
  obtain ⟨j, hj, hw, -⟩ | ⟨he, -⟩ := soundAnswer_decode w
  · cases h.symm.trans hj
    exact hw
  · cases h.symm.trans he

/-- A refused word is illegal, and its refusal names it. -/
theorem refusal_of_decode {w : Word} {e : DecodeError} (h : decode w = .error e) : e = .illegalWord w ∧ illegal w := by
  obtain ⟨j, hj, -⟩ | ⟨he, hw⟩ := soundAnswer_decode w
  · cases h.symm.trans hj
  · cases h.symm.trans he
    exact ⟨rfl, hw⟩

/-- The words that decode to no instruction are the illegal ones. -/
theorem decode_ne_ok_iff (w : Word) : (∀ i, decode w ≠ .ok i) ↔ illegal w := by
  obtain ⟨j, hj, -, hw⟩ | ⟨he, hw⟩ := soundAnswer_decode w
  · exact iff_of_false (fun h => h j hj) hw
  · exact iff_of_true (fun i hi => nomatch he.symm.trans hi) hw

end Sys2Proof
end

namespace Sys2Proof.Machine

/-- Settles O1: the round trip on the word (`decode_encode`), carried over to its two bytes. -/
theorem decodeOfEncode : Obligations.DecodeOfEncode := by
  intro i
  refine ⟨decode_encode i, fun rest => ?_⟩
  rw [decodeBytes_bytesOfWord_append, decode_encode]
  rfl

/-- Settles O2, by one walk through the decoder's arms (`soundAnswer_decode`): the word is the format of its own fields. -/
theorem encodeOfDecode : Obligations.EncodeOfDecode := fun _ _ => encode_of_decode

/-- Settles O4: the decoder refuses in six arms, whose conditions are the rows of R76 (`soundAnswer_decode`, `illegal_iff`). -/
theorem illegalWordsAreRefused : Obligations.IllegalWordsAreRefused := fun w =>
  ⟨fun _ h => (refusal_of_decode h).1, (decode_ne_ok_iff w).trans (illegal_iff w)⟩

/-- Settles O6: the decoder computes on each word. -/
theorem sampleWordsDecode : Obligations.SampleWordsDecode := by
  unfold Obligations.SampleWordsDecode
  decide

end Sys2Proof.Machine

section
/-! SUPPORT. The word of an instruction as the sum of the fields of its format (R72, R73). -/

namespace Sys2Proof.Machine

/-- The number of an instruction's word is its encoding. -/
theorem encodedAs_of_toNat {i : Instr} {k : Nat} (h : (encode i).toNat = k) : encodedAs i k := by
  have hw : BitVec.ofNat 16 k = encode i := by rw [← h, BitVec.ofNat_toNat, BitVec.setWidth_eq]
  exact ⟨hw ▸ decode_encode i, hw.symm⟩

section Formats
variable {i : Instr} {o f : Nibble} {fk : Byte} {base : Nat} (x y : Reg) (n : Nibble) (kk : Byte) (nnn : Addr12)

theorem encodedAs_formatA (h : encode i = formatA o nnn) (hb : base = o.toNat * 0x1000) :
    encodedAs i (base + nnn.toNat) :=
  encodedAs_of_toNat (by rw [h, formatA_toNat, hb])

theorem encodedAs_formatXK (h : encode i = formatXK o x kk) (hb : base = o.toNat * 0x1000) :
    encodedAs i (base + x.val * 0x100 + kk.toNat) :=
  encodedAs_of_toNat (by rw [h, formatXK_toNat, hb])

theorem encodedAs_formatXYN (h : encode i = formatXYN o x y n) (hb : base = o.toNat * 0x1000) :
    encodedAs i (base + x.val * 0x100 + y.val * 0x10 + n.toNat) :=
  encodedAs_of_toNat (by rw [h, formatXYN_toNat, hb])

/-- Format XY: the sub-opcode stands in the nibble `n`. -/
theorem encodedAs_formatXY (h : encode i = formatXYN o x y f) (hb : base = o.toNat * 0x1000 + f.toNat) :
    encodedAs i (base + x.val * 0x100 + y.val * 0x10) :=
  encodedAs_of_toNat (by rw [h, formatXYN_toNat, hb]; ring)

/-- Format XF: the sub-opcode stands in the byte `kk`. -/
theorem encodedAs_formatXF (h : encode i = formatXK o x fk) (hb : base = o.toNat * 0x1000 + fk.toNat) :
    encodedAs i (base + x.val * 0x100) :=
  encodedAs_of_toNat (by rw [h, formatXK_toNat, hb]; ring)

end Formats

end Sys2Proof.Machine
end

namespace Sys2Proof.Machine

/-- Settles O3: each instruction's word is its format of R73, and each format is the sum of its fields. -/
theorem everyFormatIsRead : Obligations.EveryFormatIsRead := by
  intro x y n kk nnn
  refine ⟨⟨encodedAs_of_toNat rfl, encodedAs_of_toNat rfl⟩, ?formatA, ?formatXK, ?formatXY,
    encodedAs_formatXYN x y n rfl rfl, ?formatXF⟩
  case formatA => refine ⟨?_, ?_, ?_, ?_⟩ <;> exact encodedAs_formatA nnn rfl rfl
  case formatXK => refine ⟨?_, ?_, ?_, ?_, ?_⟩ <;> exact encodedAs_formatXK x kk rfl rfl
  case formatXY => refine ⟨?_, ?_, ?_, ?_, ?_, ?_, ?_, ?_, ?_, ?_, ?_⟩ <;> exact encodedAs_formatXY x y rfl rfl
  case formatXF => refine ⟨?_, ?_, ?_, ?_, ?_, ?_, ?_, ?_, ?_, ?_, ?_⟩ <;> exact encodedAs_formatXF x rfl rfl

end Sys2Proof.Machine

namespace Sys2Proof.Laws.EncodingRow

/-- The family EncodingRow for every instruction. -/
theorem of_instr (i : Instr) : Statement i := by
  cases i
  exacts [cls, ret, jp _, call _, seVxKk _ _, sneVxKk _ _, seVxVy _ _, ldVxKk _ _, addVxKk _ _, ldVxVy _ _, orVxVy _ _,
    andVxVy _ _, xorVxVy _ _, addVxVy _ _, subVxVy _ _, shrVx _ _, subnVxVy _ _, shlVx _ _, sneVxVy _ _, ldINnn _, jpV0 _,
    rnd _ _, drw _ _ _, skp _, sknp _, ldVxDt _, ldVxK _, ldDtVx _, ldStVx _, addIVx _, ldFVx _, ldBVx _, ldMemVx _,
    ldVxMem _]

end Sys2Proof.Laws.EncodingRow

section
/-! SUPPORT. The rows of the opcode table (R75, R80): a word that matches a row decodes to an instruction of that row. -/

namespace Sys2Proof

/-- The mnemonic names the row. -/
theorem eq_of_mnemonic_eq : ∀ row ∈ opcodeRows, ∀ row' ∈ opcodeRows, row.mnemonic = row'.mnemonic → row = row' := by
  decide

section Masks
variable {w m p : Word}

theorem fieldFamily_of_masked (h : w &&& m = p) (hm : fieldFamily m = 0xF) : fieldFamily w = fieldFamily p := by
  rw [← h, fieldFamily, fieldFamily, BitVec.extractLsb'_and, ← fieldFamily, ← fieldFamily, hm]
  exact BitVec.and_allOnes.symm

theorem fieldN_of_masked (h : w &&& m = p) (hm : fieldN m = 0xF) : fieldN w = fieldN p := by
  rw [← h, fieldN, fieldN, BitVec.extractLsb'_and, ← fieldN, ← fieldN, hm]
  exact BitVec.and_allOnes.symm

theorem fieldKk_of_masked (h : w &&& m = p) (hm : fieldKk m = 0xFF) : fieldKk w = fieldKk p := by
  rw [← h, fieldKk, fieldKk, BitVec.extractLsb'_and, ← fieldKk, ← fieldKk, hm]
  exact BitVec.and_allOnes.symm

end Masks

section Rows
variable {w : Word} {row : OpcodeRow}

/-- Every row fixes the family of its words. -/
theorem fieldFamily_of_matchesWord (hrow : row ∈ opcodeRows) (h : row.matchesWord w = true) :
    fieldFamily w = fieldFamily row.pattern := by
  have hmask : ∀ row ∈ opcodeRows, fieldFamily row.mask = 0xF := by decide
  exact fieldFamily_of_masked (of_decide_eq_true h) (hmask row hrow)

/-- The family and the sub-opcode a row fixes select the arm of the decoder that answers its instruction.
The rows are taken in the table's order: of the low families CLS and RET fix the word and SE Vx, Vy a sub-opcode, of the
middle ones the last two, SKP and SKNP, a sub-opcode. -/
theorem mnemonic_of_matchesWord (hrow : row ∈ opcodeRows) (h : row.matchesWord w = true) :
    (decode w).map Instr.mnemonic = .ok row.mnemonic := by
  have hw : w &&& row.mask = row.pattern := of_decide_eq_true h
  have hf := fieldFamily_of_matchesWord hrow h
  have hn := fieldN_of_masked hw
  have hk := fieldKk_of_masked hw
  simp only [opcodeRows, List.mem_append] at hrow
  obtain ((hlow | halu) | hmid) | hhigh := hrow
  · fin_cases hlow
    · obtain rfl : w = 0x00E0 := BitVec.and_allOnes.symm.trans hw
      rfl
    · obtain rfl : w = 0x00EE := BitVec.and_allOnes.symm.trans hw
      rfl
    iterate 4 · rw [decode, hf]; rfl
    · rw [decode, hf, hn rfl]; rfl
    all_goals rw [decode, hf]; rfl
  · fin_cases halu <;> rw [decode, decodeAlu, hf, hn rfl] <;> rfl
  · fin_cases hmid
    iterate 4 · rw [decode, hf]; rfl
    all_goals rw [decode, decodeKey, hf, hk rfl]; rfl
  · fin_cases hhigh <;> rw [decode, decodeMisc, hf, hk rfl] <;> rfl

/-- A word that decodes matches the row of its instruction. -/
theorem matchesWord_of_mnemonic {i : Instr} (hi : decode w = .ok i) (hrow : row ∈ opcodeRows)
    (hname : row.mnemonic = i.mnemonic) : row.matchesWord w = true := by
  obtain ⟨-, row', hrow', hname', hmatch⟩ := Laws.EncodingRow.of_instr i
  rwa [eq_of_mnemonic_eq row hrow row' hrow' (hname.trans hname'.symm), ← encode_of_decode hi]

end Rows

end Sys2Proof
end

namespace Sys2Proof.Machine

/-- Settles O5: a matched row selects the decoder's answer (`mnemonic_of_matchesWord`), and every instruction's word has the
fixed bits of its own row (`matchesWord_of_mnemonic`). -/
theorem opcodeTableAgrees : Obligations.OpcodeTableAgrees := by
  refine fun w => ⟨fun i hi row hrow => ⟨fun hmatch => ?_, matchesWord_of_mnemonic hi hrow⟩, fun e he row hrow => ?_⟩
  · have hname := mnemonic_of_matchesWord hrow hmatch
    rw [hi] at hname
    exact (Except.ok.inj hname).symm
  · rw [Bool.eq_false_iff]
    intro hmatch
    have hname := mnemonic_of_matchesWord hrow hmatch
    rw [he] at hname
    cases hname

end Sys2Proof.Machine

section
/-! SUPPORT. The equation of each branch of the step (R100 to R102). -/

namespace Sys2Proof.Machine

variable {s : State} {i : Instr}

/-- A step of a core that is halted or waits does nothing (R100). -/
theorem step_of_not_active (h : ¬ s.active) : step s = .next s := by
  rw [step, State.fetch_of_not_active h]

/-- A step of an active core takes the fault of the fetch check, with no opcode (R101). -/
theorem step_of_checkFetch {c : FaultCause} (hact : s.active) (hc : checkFetch s.PC = some c) :
    step s = .next (s.takeFault c none) := by
  obtain ⟨hhalt, hwait⟩ := hact
  simp only [step, State.fetch, hhalt, hwait, hc]

/-- A step of an active core that fetches an illegal word takes the decoder's fault, with the word (R102). -/
theorem step_of_illegal (hact : s.active) (hPC : fetchable s.PC) (hw : ∀ i, decode s.fetchWord ≠ .ok i) :
    step s = .next (s.takeFault .decodeError (some s.fetchWord)) := by
  obtain ⟨hhalt, hwait⟩ := hact
  cases hd : decode s.fetchWord with
  | error e => simp only [step, State.fetch, hhalt, hwait, (checkFetch_eq_none _).2 hPC, hd]
  | ok i => exact absurd hd (hw i)

/-- A step of an active core executes the instruction at PC (R100). -/
theorem step_of_decodesTo (hact : s.active) (hi : s.decodesTo i) : step s = exec i s := by
  obtain ⟨hhalt, hwait⟩ := hact
  obtain ⟨hPC, hd⟩ := hi
  simp only [step, State.fetch, hhalt, hwait, (checkFetch_eq_none _).2 hPC, hd]

/-- Two bytes that decode to an instruction are a word that does (R70). -/
theorem decode_of_decodeBytes {a b : Byte} {rest : List Byte} (h : decodeBytes [a, b] = .ok (i, rest)) :
    decode (wordOfBytes a b) = .ok i := by
  have h : (decode (wordOfBytes a b)).map (·, []) = .ok (i, rest) := h
  cases hd : decode (wordOfBytes a b) with
  | error e =>
    rw [hd] at h
    cases h
  | ok j =>
    rw [hd] at h
    obtain ⟨rfl, -⟩ := Prod.mk.inj (Except.ok.inj h)
    rfl

end Sys2Proof.Machine
end

namespace Sys2Proof.Machine

/-- Settles O7: the two bytes at PC are the fetched word, and a step executes what that word decodes to
(`step_of_decodesTo`). -/
theorem stepRunsTheDecodedInstruction : Obligations.StepRunsTheDecodedInstruction :=
  fun _ _ hact hPC hi => step_of_decodesTo hact ⟨hPC, decode_of_decodeBytes hi⟩

/-- Settles O8: one equation of the step for each check. -/
theorem stepFollowsItsChecks : Obligations.StepFollowsItsChecks := by
  intro s
  refine ⟨fun hhalt => ?halted, fun _ r hwait => ?waiting, fun hact hodd => ?misaligned, fun hact heven htop => ?outOfRange,
    fun hact hPC w hw => ?fetched⟩
  case halted => exact step_of_not_active fun hact => hhalt hact.1
  case waiting => exact step_of_not_active fun hact => nomatch hwait.symm.trans hact.2
  case misaligned =>
    exact ⟨_, step_of_checkFetch hact ((checkFetch_eq_misaligned _).2 hodd), s.takeFault_faultsWith _ _⟩
  case outOfRange =>
    exact ⟨_, step_of_checkFetch hact ((checkFetch_eq_outOfRange _).2 ⟨heven, htop⟩), s.takeFault_faultsWith _ _⟩
  case fetched =>
    obtain rfl : w = s.fetchWord := BitVec.eq_of_toNat_eq (hw.trans s.fetchWord_toNat.symm)
    exact ⟨fun hill => ⟨_, step_of_illegal hact hPC hill, s.takeFault_faultsWith _ _⟩,
      fun i hi => step_of_decodesTo hact ⟨hPC, hi⟩⟩

end Sys2Proof.Machine

section
/-! SUPPORT. Where the instructions that transfer control leave PC and the stack (R103, R110 to R117). -/

namespace Sys2Proof.Machine

/-! ### Targets -/

/-- The sum of an address field and a register does not reach 2^16, so it is not reduced (R113). -/
theorem addrOperand_add_offsetOperand_toNat (s : State) (nnn : Addr12) (r : Reg) :
    (addrOperand nnn + s.offsetOperand r).toNat = nnn.toNat + (s.reg r).toNat := by
  have haddr := nnn.isLt
  have hoffset := (s.reg r).isLt
  rw [BitVec.toNat_add, addrOperand_toNat, State.offsetOperand_toNat]
  omega

/-- `next` is 2 bytes past an instruction that was fetched (R24). -/
theorem State.next_toNat {s : State} (h : fetchable s.PC) : s.next.toNat = s.PC.toNat + 2 :=
  advancesBy_of_next (t := s.advance) rfl h

/-! ### Skips -/

/-- A skip taken when `p` holds. -/
theorem State.skipIf_advancesBy_of_iff {s : State} {taken : Bool} {p : Prop} [Decidable p] (h : taken = true ↔ p) :
    advancesBy (if p then 4 else 2) s (s.skipIf taken) := by
  obtain rfl : taken = decide p := Bool.eq_iff_iff.2 (h.trans decide_eq_true_iff.symm)
  simpa only [decide_eq_true_eq] using s.skipIf_advancesBy (decide p)

/-- A skip taken when `p` does not hold. -/
theorem State.skipIf_advancesBy_of_iff_not {s : State} {taken : Bool} {p : Prop} [Decidable p] (h : taken = true ↔ ¬ p) :
    advancesBy (if p then 2 else 4) s (s.skipIf taken) := by
  rw [← ite_not]
  exact State.skipIf_advancesBy_of_iff h

/-! ### The call stack -/

/-- RET with a frame leaves the entry below SP in PC, and one frame less (R110). -/
theorem exec_ret_pops {s : State} (h : s.SP.val ≠ 0) :
    ∃ t, exec .ret s = .next t ∧ t.SP.val + 1 = s.SP.val ∧
      (∀ j : Fin 16, j.val + 1 = s.SP.val → t.PC = s.stack[j]) ∧ unchangedBut [.PC, .SP] s t := by
  refine ⟨_, exec_ret_of_frame h, Nat.sub_add_cancel (Nat.pos_of_ne_zero h), fun j hj => ?_,
    (s.withSP_unchangedBut _).trans (State.jump_unchangedBut _ _)⟩
  simp [← hj]

/-- CALL with room leaves `next` in the entry at SP, one frame more, and the target in PC (R112). -/
theorem exec_call_pushes {s : State} (nnn : Addr12) (h : s.SP.val < 16) :
    ∃ t, exec (.call nnn) s = .next t ∧ t.SP.val = s.SP.val + 1 ∧ t.PC = addrOperand nnn ∧
      t.stack[s.SP.val] = s.next ∧ unchangedBut [.PC, .SP, .frame ⟨s.SP.val, h⟩] s t :=
  ⟨_, exec_call_of_room nnn h, rfl, rfl, Vector.getElem_set_self h,
    ((s.withStackEntry_unchangedBut ⟨s.SP.val, h⟩ s.next).trans
      (State.withSP_unchangedBut _ ⟨s.SP.val + 1, by omega⟩)).trans (State.jump_unchangedBut _ (addrOperand nnn))⟩

end Sys2Proof.Machine
end

namespace Sys2Proof.Machine

/-- Settles O21: RET pops where there is a frame (`exec_ret_pops`) and underflows where there is none. -/
theorem returnPopsOrUnderflows : Obligations.ReturnPopsOrUnderflows :=
  ⟨encodedAs_of_toNat rfl, fun s =>
    ⟨exec_ret_pops, fun hempty => ⟨_, exec_ret_of_empty hempty, s.raise_faultsWith .stackUnderflow .ret⟩⟩⟩

/-- Settles O22: CALL pushes where there is room (`exec_call_pushes`) and overflows where there is none. -/
theorem callPushesOrOverflows : Obligations.CallPushesOrOverflows := by
  intro s nnn
  have hword : encodedAs (.call nnn) (0x2000 + nnn.toNat) := encodedAs_formatA nnn rfl rfl
  refine ⟨hword, fun hroom => ?room, fun hfull => ?full⟩
  case room =>
    obtain ⟨t, ht, hSP, hPC, hentry, hframe⟩ := exec_call_pushes nnn hroom
    refine ⟨t, ht, hSP, by rw [hPC, addrOperand_toNat], fun j hj => ?_⟩
    obtain rfl : j = ⟨s.SP.val, hroom⟩ := Fin.ext hj
    exact ⟨fun hfetch => (congrArg BitVec.toNat hentry).trans (State.next_toNat hfetch), hframe⟩
  case full =>
    rw [← hword.2]
    exact ⟨_, exec_call_of_full nnn (by omega), s.raise_faultsWith .stackOverflow (.call nnn)⟩

/-- Settles O23: both jumps answer the state with their target in PC. -/
theorem jumpsGoToTheirTargets : Obligations.JumpsGoToTheirTargets := by
  intro s nnn
  exact ⟨⟨encodedAs_formatA nnn rfl rfl, _, rfl, addrOperand_toNat nnn, s.jump_unchangedBut _⟩,
    encodedAs_formatA nnn rfl rfl, _, rfl, addrOperand_add_offsetOperand_toNat s nnn 0, s.jump_unchangedBut _⟩

/-- Settles O24: each skip answers `skipIf` of its comparison, which is that of the two numbers. -/
theorem skipsCompare : Obligations.SkipsCompare := by
  intro s x y kk
  have heq (a b : Byte) : decide (a = b) = true ↔ a.toNat = b.toNat := decide_eq_true_iff.trans BitVec.toNat_inj.symm
  have hne (a b : Byte) : decide (a ≠ b) = true ↔ ¬ a.toNat = b.toNat :=
    decide_eq_true_iff.trans (not_congr BitVec.toNat_inj.symm)
  exact ⟨
    ⟨encodedAs_formatXK x kk rfl rfl, _, rfl, State.skipIf_advancesBy_of_iff (heq _ _), s.skipIf_unchangedBut _⟩,
    ⟨encodedAs_formatXK x kk rfl rfl, _, rfl, State.skipIf_advancesBy_of_iff_not (hne _ _), s.skipIf_unchangedBut _⟩,
    ⟨encodedAs_formatXY x y rfl rfl, _, rfl, State.skipIf_advancesBy_of_iff (heq _ _), s.skipIf_unchangedBut _⟩,
    ⟨encodedAs_formatXY x y rfl rfl, _, rfl, State.skipIf_advancesBy_of_iff_not (hne _ _), s.skipIf_unchangedBut _⟩⟩

/-- Settles O25: RET pops the entry that CALL pushed, and the entries below it are in the frame of both. -/
theorem returnResumesAfterCall : Obligations.ReturnResumesAfterCall := by
  intro s t u nnn hPC hroom hcall huSP hustack
  obtain ⟨t', ht', htSP, -, hentry, hcallFrame⟩ := exec_call_pushes nnn hroom
  obtain rfl : t' = t := Host.Outcome.next.inj (ht'.symm.trans hcall)
  have huval : u.SP.val = s.SP.val + 1 := (congrArg Fin.val huSP).trans htSP
  obtain ⟨v, hret, hvSP, hvPC, hretFrame⟩ := exec_ret_pops (s := u) (by omega)
  refine ⟨v, hret, ?PC, Fin.ext (by omega), fun j hj => ?frames⟩
  case PC =>
    have hresume : v.PC = s.next := by
      rw [hvPC ⟨s.SP.val, hroom⟩ huval.symm, hustack]
      exact hentry
    rw [hresume, State.next_toNat hPC]
  case frames =>
    calc v.stack[j] = u.stack[j] := hretFrame (.frame j) (by simp)
      _ = t'.stack[j] := by rw [hustack]
      _ = s.stack[j] := hcallFrame (.frame j) (by simp [Fin.ext_iff]; omega)

end Sys2Proof.Machine

section
/-! SUPPORT. The end of a program (R358). -/

namespace Sys2Proof.Machine

variable {s : State}

/-- A step at a jump to itself leaves the whole state as it is (R111). -/
theorem State.ended.step_eq (h : s.ended) : step s = .next s := by
  obtain ⟨hact, nnn, hi, hself⟩ := h
  have htarget : addrOperand nnn = s.PC := BitVec.eq_of_toNat_eq ((addrOperand_toNat nnn).trans hself)
  rw [step_of_decodesTo hact hi]
  show Host.Outcome.next (s.jump (addrOperand nnn)) = .next s
  rw [htarget]
  rfl

/-- A state that a step leaves unchanged is left unchanged by every run. -/
theorem run_of_step_eq {M : Host.Core} {s : M.State} (h : M.step s = .next s) (n : Nat) : M.run n s = .next s := by
  induction n with
  | zero => rfl
  | succ n ih =>
    rw [Host.Core.run, h]
    exact ih

/-- Settles O26: the step at a program's end is the identity, and so is every run of it. -/
theorem selfJumpIsIdle : Obligations.SelfJumpIsIdle := fun _ hended n =>
  run_of_step_eq (M := core) hended.step_eq n

end Sys2Proof.Machine
end

section
/-! SUPPORT. Where PC goes after every instruction (R103). -/

namespace Sys2Proof.Machine

variable {s : State} {i : Instr}

/-- The instruction faults, or leaves PC where its rule says (R103). -/
def faultsOrLands (i : Instr) (s : State) (o : Host.Outcome State Fault Refusal) : Prop :=
  (∃ c, o = .next (s.raise c i)) ∨ ∃ t, o = .next t ∧ t.PC.toNat = s.pcAfter i

/-- A store leaves PC at `next`. -/
theorem storeAtI_faultsOrLands (hPC : fetchable s.PC) (hi : s.pcAfter i = s.PC.toNat + 2) (bytes : List Byte)
    (hlen : 0 < bytes.length) : faultsOrLands i s (s.storeAtI i bytes) := by
  obtain ⟨-, ht⟩ | ⟨-, -, ht⟩ | ⟨-, -, ht⟩ := s.storeAtI_cases i bytes hlen
  · exact .inl ⟨_, ht⟩
  · exact .inl ⟨_, ht⟩
  · exact .inr ⟨_, ht, (State.next_toNat hPC).trans hi.symm⟩

/-- SKP skips when the bit of its key is set (R220). -/
theorem exec_skp_faultsOrLands (hPC : fetchable s.PC) (x : Reg) : faultsOrLands (.skp x) s (exec (.skp x) s) := by
  obtain ⟨-, ht⟩ | ⟨k, hk, ht⟩ := s.skipOnKey_cases (.skp x) x true
  · exact .inl ⟨_, ht⟩
  · exact .inr ⟨_, ht, State.skipIf_advancesBy_of_iff (by simp [hk, State.keyHeld]) hPC⟩

/-- SKNP skips when the bit of its key is clear (R221). -/
theorem exec_sknp_faultsOrLands (hPC : fetchable s.PC) (x : Reg) : faultsOrLands (.sknp x) s (exec (.sknp x) s) := by
  obtain ⟨-, ht⟩ | ⟨k, hk, ht⟩ := s.skipOnKey_cases (.sknp x) x false
  · exact .inl ⟨_, ht⟩
  · exact .inr ⟨_, ht, State.skipIf_advancesBy_of_iff_not (by simp [hk, State.keyHeld]) hPC⟩

/-- RET goes to the entry below SP (R110). -/
theorem exec_ret_faultsOrLands (s : State) : faultsOrLands .ret s (exec .ret s) := by
  by_cases hempty : s.SP.val = 0
  · exact .inl ⟨_, exec_ret_of_empty hempty⟩
  · refine .inr ⟨_, exec_ret_of_frame hempty, ?_⟩
    rw [State.pcAfter, Vector.getElem?_eq_getElem (by omega)]
    rfl

/-- CALL goes to its target (R112). -/
theorem exec_call_faultsOrLands (nnn : Addr12) (s : State) : faultsOrLands (.call nnn) s (exec (.call nnn) s) := by
  by_cases hroom : s.SP.val < 16
  · exact .inr ⟨_, exec_call_of_room nnn hroom, addrOperand_toNat nnn⟩
  · exact .inl ⟨_, exec_call_of_full nnn hroom⟩

theorem exec_drw_faultsOrLands (hPC : fetchable s.PC) (x y : Reg) (n : Nibble) :
    faultsOrLands (.drw x y n) s (exec (.drw x y n) s) := by
  by_cases htop : s.spritePassesTop n = true
  · exact .inl ⟨_, exec_drw_of_passesTop x y htop⟩
  · exact .inr ⟨_, exec_drw_of_fits x y htop, State.next_toNat hPC⟩

theorem exec_ldVxMem_faultsOrLands (hPC : fetchable s.PC) (x : Reg) :
    faultsOrLands (.ldVxMem x) s (exec (.ldVxMem x) s) := by
  by_cases htop : s.spanPassesTop x = true
  · exact .inl ⟨_, exec_ldVxMem_of_passesTop htop⟩
  · exact .inr ⟨_, exec_ldVxMem_of_fits htop, State.next_toNat hPC⟩

/-- Every instruction faults or leaves PC where its rule says. -/
theorem exec_faultsOrLands (hPC : fetchable s.PC) (i : Instr) : faultsOrLands i s (exec i s) := by
  cases i with
  | ret => exact exec_ret_faultsOrLands s
  | jp nnn => exact .inr ⟨_, rfl, addrOperand_toNat nnn⟩
  | call nnn => exact exec_call_faultsOrLands nnn s
  | jpV0 nnn => exact .inr ⟨_, rfl, addrOperand_add_offsetOperand_toNat s nnn 0⟩
  | seVxKk _ _ | seVxVy _ _ => exact .inr ⟨_, rfl, State.skipIf_advancesBy_of_iff decide_eq_true_iff hPC⟩
  | sneVxKk _ _ | sneVxVy _ _ => exact .inr ⟨_, rfl, State.skipIf_advancesBy_of_iff_not decide_eq_true_iff hPC⟩
  | skp x => exact exec_skp_faultsOrLands hPC x
  | sknp x => exact exec_sknp_faultsOrLands hPC x
  | drw x y n => exact exec_drw_faultsOrLands hPC x y n
  | ldBVx x => exact storeAtI_faultsOrLands hPC rfl (bcdDigits (s.reg x)) (by simp)
  | ldMemVx x => exact storeAtI_faultsOrLands hPC rfl (s.regsUpTo x) (by simp)
  | ldVxMem x => exact exec_ldVxMem_faultsOrLands hPC x
  -- The rest never fault and leave PC at `next`.
  | _ => exact .inr ⟨_, rfl, State.next_toNat hPC⟩

/-- Settles O13: an instruction that does not fault leaves PC where its rule says (`exec_faultsOrLands`), and one that
faults sets the latch. -/
theorem pcTakesOneOfThreeValues : Obligations.PcTakesOneOfThreeValues := by
  intro i s t hPC _ ht hhalt
  obtain ⟨c, hfault⟩ | ⟨u, hu, hpc⟩ := exec_faultsOrLands hPC i
  · obtain rfl : s.raise c i = t := Host.Outcome.next.inj (hfault.symm.trans ht)
    cases hhalt
  · obtain rfl : u = t := Host.Outcome.next.inj (hu.symm.trans ht)
    exact hpc

end Sys2Proof.Machine
end

section
/-! SUPPORT. What the two endings of the ALU family leave in the registers, and its flags and results as numbers (R130 to
R144). -/

namespace Sys2Proof.Machine

/-! ### The two endings -/

/-- An operation with a result alone leaves it in Vx, VF no exception. -/
theorem State.finish_reg (s : State) (x : Reg) (v : Byte) : (s.setReg x v).advance.reg x = v :=
  (s.reg_setReg x x v).trans (if_pos rfl)

/-- An operation with a result and a flag completes: VF holds the flag for every x, and Vx the result unless it is VF
(R130, D6). -/
theorem State.finishFlag_ends (s : State) (x : Reg) {v f : Byte} {result flag : Nat} (hv : v.toNat = result)
    (hf : f.toNat = flag) :
    ∃ t, s.finishFlag x v f = .next t ∧ (x ≠ 0xF → (t.reg x).toNat = result) ∧ (t.reg 0xF).toNat = flag ∧
      advancesBy 2 s t ∧ unchangedBut [.PC, .reg x, .reg 0xF] s t := by
  refine ⟨_, s.finishFlag_eq x v f, fun hx => ?result, ?flag, advancesBy_of_next rfl, s.finishFlag_unchangedBut x v f⟩
  case result => simp [hx, hv]
  case flag => simp [hf]

/-! ### The flags -/

theorem carryFlag_toNat (a b : Byte) : (carryFlag a b).toNat = if a.toNat + b.toNat > 255 then 1 else 0 := by
  simp [carryFlag]

theorem greaterFlag_toNat (a b : Byte) : (greaterFlag a b).toNat = if a.toNat > b.toNat then 1 else 0 := by
  simp [greaterFlag]

/-- The bit that a right shift drops is the remainder of halving. -/
theorem lowBitFlag_toNat (a : Byte) : (lowBitFlag a).toNat = a.toNat % 2 := by
  rw [lowBitFlag, flagByte_toNat, BitVec.getLsbD, Nat.testBit_zero]
  grind

/-- The bit that a left shift drops is the half of the range that the byte lies in. -/
theorem highBitFlag_toNat (a : Byte) : (highBitFlag a).toNat = a.toNat / 128 := by
  have ha := a.isLt
  rw [highBitFlag, flagByte_toNat, BitVec.getLsbD, Nat.testBit_eq_decide_div_mod_eq]
  grind

/-! ### The results -/

theorem sub_toNat (a b : Byte) : (a - b).toNat = (a.toNat + 256 - b.toNat) % 256 := by
  have hb := b.isLt
  rw [BitVec.toNat_sub]
  omega

theorem shiftRight_one_toNat (a : Byte) : (a >>> 1).toNat = a.toNat / 2 :=
  BitVec.toNat_ushiftRight a 1

theorem shiftLeft_one_toNat (a : Byte) : (a <<< 1).toNat = a.toNat * 2 % 256 := by
  rw [BitVec.toNat_shiftLeft, Nat.shiftLeft_eq]

end Sys2Proof.Machine
end

namespace Sys2Proof.Machine

/-- Settles O27: both leave their result in Vx, by the ending that writes no flag. -/
theorem immediateLoadAndAdd : Obligations.ImmediateLoadAndAdd := by
  intro s x kk
  refine ⟨
    ⟨encodedAs_formatXK x kk rfl rfl, _, rfl, s.finish_reg x kk, advancesBy_of_next rfl, s.finish_unchangedBut x _⟩,
    encodedAs_formatXK x kk rfl rfl, _, rfl, ?sum, advancesBy_of_next rfl, s.finish_unchangedBut x _⟩
  rw [s.finish_reg, BitVec.toNat_add]

/-- Settles O28: each leaves its result in Vx, by the ending that writes no flag, and bit k of the result is the operation
on bits k. -/
theorem copyAndLogic : Obligations.CopyAndLogic := by
  intro s x y
  refine ⟨
    ⟨encodedAs_formatXY x y rfl rfl, _, rfl, s.finish_reg x _, advancesBy_of_next rfl, s.finish_unchangedBut x _⟩,
    ⟨encodedAs_formatXY x y rfl rfl, _, rfl, fun k _ => ?or, advancesBy_of_next rfl, s.finish_unchangedBut x _⟩,
    ⟨encodedAs_formatXY x y rfl rfl, _, rfl, fun k _ => ?and, advancesBy_of_next rfl, s.finish_unchangedBut x _⟩,
    ⟨encodedAs_formatXY x y rfl rfl, _, rfl, fun k _ => ?xor, advancesBy_of_next rfl, s.finish_unchangedBut x _⟩⟩
  case or => rw [s.finish_reg, BitVec.getLsbD_or]
  case and => rw [s.finish_reg, BitVec.getLsbD_and]
  case xor => rw [s.finish_reg, BitVec.getLsbD_xor]

/-- Settles O29: the flag is written last (`State.finishFlag_ends`), and it is the carry. -/
theorem addSetsCarry : Obligations.AddSetsCarry := fun s x y =>
  ⟨encodedAs_formatXY x y rfl rfl, s.finishFlag_ends x (BitVec.toNat_add _ _) (carryFlag_toNat _ _)⟩

/-- Settles O30: the flag is written last (`State.finishFlag_ends`), and it compares the two operands. -/
theorem subtractionsSetStrictFlag : Obligations.SubtractionsSetStrictFlag := fun s x y =>
  ⟨⟨encodedAs_formatXY x y rfl rfl, s.finishFlag_ends x (sub_toNat _ _) (greaterFlag_toNat _ _)⟩,
    encodedAs_formatXY x y rfl rfl, s.finishFlag_ends x (sub_toNat _ _) (greaterFlag_toNat _ _)⟩

/-- Settles O31: the flag is written last (`State.finishFlag_ends`), it is the bit dropped, and neither the result
nor the flag depends on y. -/
theorem shiftsMoveOneBit : Obligations.ShiftsMoveOneBit := by
  intro s x y
  obtain ⟨t, hshr, hshrEnds⟩ := s.finishFlag_ends x (shiftRight_one_toNat (s.reg x)) (lowBitFlag_toNat (s.reg x))
  obtain ⟨u, hshl, hshlEnds⟩ := s.finishFlag_ends x (shiftLeft_one_toNat (s.reg x)) (highBitFlag_toNat (s.reg x))
  exact ⟨⟨encodedAs_formatXY x y rfl rfl, t, fun _ => hshr, hshrEnds⟩,
    encodedAs_formatXY x y rfl rfl, u, fun _ => hshl, hshlEnds⟩

/-- Settles O32: the draw changes the counter alone, and what is left in Vx is the drawn byte under the mask. -/
theorem randomIsMaskedDraw : Obligations.RandomIsMaskedDraw := by
  intro s x kk
  refine ⟨encodedAs_formatXK x kk rfl rfl, _, rfl, fun k _ => ?bits, fun hkk => ?zeroMask, rfl, advancesBy_of_next rfl,
    s.drawByte_unchangedBut.trans (State.finish_unchangedBut _ x _)⟩
  case bits => rw [State.finish_reg, BitVec.getLsbD_and]
  case zeroMask =>
    rw [State.finish_reg, hkk]
    exact BitVec.and_zero

end Sys2Proof.Machine

section
/-! SUPPORT. What the instructions of the index register compute (R171, R172), and what a store at I does in each range
of I (R53, R54, R173, R174). -/

namespace Sys2Proof.Machine

variable {s : State}

/-- An instruction's fault records the number of its encoding (R301). -/
theorem encodedAs.raise_faultsWith {i : Instr} {w : Nat} (h : encodedAs i w) (s : State) (c : FaultCause) :
    faultsWith c (some (BitVec.ofNat 16 w)) s (s.raise c i) := by
  rw [← h.2]
  exact s.raise_faultsWith c i

/-! ### The index register -/

/-- The sum of I and a register is reduced mod 2^16 (R171). -/
theorem State.I_add_offsetOperand_toNat (s : State) (x : Reg) :
    (s.I + s.offsetOperand x).toNat = (s.I.toNat + (s.reg x).toNat) % 65536 := by
  rw [BitVec.toNat_add, State.offsetOperand_toNat]

/-- Glyphs are 5 bytes apart, chosen by the low nibble; in a font in the reserved region no address is reduced (R172). -/
theorem glyphAddr_toNat {base : Nat} (hbase : base + 80 ≤ romBase) (v : Byte) :
    (glyphAddr base v).toNat = base + 5 * (v.toNat % 16) := by
  have hnibble : (v &&& 0x0F).toNat = v.toNat % 16 := Nat.and_two_pow_sub_one_eq_mod v.toNat 4
  unfold romBase at hbase
  rw [glyphAddr, hnibble, BitVec.toNat_ofNat]
  omega

/-! ### Stores -/

/-- A store that passes the top of memory faults, wherever it begins (R54). -/
theorem State.storeAtI_of_passesTop (i : Instr) {bytes : List Byte} (hlen : 0 < bytes.length)
    (htop : 0x1000 < s.I.toNat + bytes.length) : s.storeAtI i bytes = .next (s.raise .memoryOutOfRange i) := by
  obtain ⟨-, heq⟩ | ⟨hfits, -, -⟩ | ⟨hfits, -, -⟩ := s.storeAtI_cases i bytes hlen
  · exact heq
  · omega
  · omega

/-- A store within memory that begins in the reserved region faults (R53, D13). -/
theorem State.storeAtI_of_reserved (i : Instr) {bytes : List Byte} (hlen : 0 < bytes.length)
    (hlow : s.I.toNat < 0x200) (htop : s.I.toNat + bytes.length ≤ 0x1000) :
    s.storeAtI i bytes = .next (s.raise .reservedWrite i) := by
  obtain ⟨hpast, -⟩ | ⟨-, -, heq⟩ | ⟨-, hprogram, -⟩ := s.storeAtI_cases i bytes hlen
  · omega
  · exact heq
  · omega

/-- A store whose whole span lies in program memory leaves each byte at its place and changes no other part but PC. -/
theorem State.storeAtI_stores (i : Instr) {bytes : List Byte} (hlen : 0 < bytes.length) (hlow : 0x200 ≤ s.I.toNat)
    (htop : s.I.toNat + bytes.length ≤ 0x1000) :
    ∃ t, s.storeAtI i bytes = .next t ∧
      (∀ (k : Nat) (hk : k < bytes.length), t.mem.read (s.I.toNat + k) = bytes[k]) ∧
      advancesBy 2 s t ∧ unchangedBut ([.PC] ++ bytesFromI s bytes.length) s t :=
  ⟨_, State.storeAtI_of_fits i hlen hlow htop, Memory.read_writeBytes_at s.mem s.I.toNat bytes, advancesBy_of_next rfl,
    (s.writeBytes_unchangedBut bytes).trans (State.advance_unchangedBut _)⟩

end Sys2Proof.Machine
end

namespace Sys2Proof.Machine

/-- Settles O33: each answers the state with its value in I, and the font with all its glyphs lies below 0x200
(`fontBase_add_le_romBase`). -/
theorem indexIsComputed : Obligations.IndexIsComputed := by
  intro s x nnn
  have hglyph := glyphAddr_toNat fontBase_add_le_romBase (s.reg x)
  refine ⟨
    ⟨encodedAs_formatA nnn rfl rfl, _, rfl, addrOperand_toNat nnn, advancesBy_of_next rfl, s.finishIndex_unchangedBut _⟩,
    ⟨encodedAs_formatXF x rfl rfl, _, rfl, s.I_add_offsetOperand_toNat x, advancesBy_of_next rfl,
      s.finishIndex_unchangedBut _⟩,
    encodedAs_formatXF x rfl rfl, _, rfl, hglyph, ?reserved, advancesBy_of_next rfl, s.finishIndex_unchangedBut _⟩
  case reserved =>
    have hfont : Config.fontBase.val + 80 ≤ 0x200 := fontBase_add_le_romBase
    show (glyphAddr Config.fontBase.val (s.reg x)).toNat + 5 ≤ 0x200
    omega

/-- Settles O34: LD B is the store of the three digits at I, in the three ranges of I. -/
theorem bcdStoresThreeDigits : Obligations.BcdStoresThreeDigits := by
  intro s x
  have hword : encodedAs (.ldBVx x) (0xF033 + x.val * 0x100) := encodedAs_formatXF x rfl rfl
  have hlen : (bcdDigits (s.reg x)).length = 3 := length_bcdDigits _
  refine ⟨hword, fun htop => ?passesTop, fun hlow => ?reserved, fun hlow htop => ?stores⟩
  case passesTop => exact ⟨_, State.storeAtI_of_passesTop _ (by omega) (by omega), hword.raise_faultsWith s _⟩
  case reserved => exact ⟨_, State.storeAtI_of_reserved _ (by omega) hlow (by omega), hword.raise_faultsWith s _⟩
  case stores =>
    obtain ⟨t, ht, hbytes, hPC, hframe⟩ :=
      State.storeAtI_stores (.ldBVx x) (bytes := bcdDigits (s.reg x)) (by omega) hlow (by omega)
    obtain ⟨hhundreds, htens, hones⟩ := bcdDigits_toNat (s.reg x)
    exact ⟨t, ht, (congrArg BitVec.toNat (hbytes 0 (by omega))).trans hhundreds,
      (congrArg BitVec.toNat (hbytes 1 (by omega))).trans htens,
      (congrArg BitVec.toNat (hbytes 2 (by omega))).trans hones, hPC, hframe⟩

/-- Settles O35: LD [I], Vx is the store of V0 to Vx at I, in the three ranges of I. -/
theorem blockStoreWritesRegisters : Obligations.BlockStoreWritesRegisters := by
  intro s x
  have hword : encodedAs (.ldMemVx x) (0xF055 + x.val * 0x100) := encodedAs_formatXF x rfl rfl
  have hlen := s.length_regsUpTo x
  refine ⟨hword, fun htop => ?passesTop, fun hlow => ?reserved, fun hlow htop => ?stores⟩
  case passesTop => exact ⟨_, State.storeAtI_of_passesTop _ (by omega) (by omega), hword.raise_faultsWith s _⟩
  case reserved => exact ⟨_, State.storeAtI_of_reserved _ (by omega) hlow (by omega), hword.raise_faultsWith s _⟩
  case stores =>
    obtain ⟨t, ht, hbytes, hPC, hframe⟩ :=
      State.storeAtI_stores (.ldMemVx x) (bytes := s.regsUpTo x) (by omega) hlow (by omega)
    refine ⟨t, ht, fun k hk => ?_, hPC, hlen ▸ hframe⟩
    have hkx : k.val ≤ x.val := hk
    exact (hbytes k (by omega)).trans (s.getElem_regsUpTo x k _)

/-- Settles O36: LD Vx, [I] faults past the top of memory, and otherwise is the block load, whatever the region. -/
theorem blockLoadReadsRegisters : Obligations.BlockLoadReadsRegisters := by
  intro s x
  have hword : encodedAs (.ldVxMem x) (0xF065 + x.val * 0x100) := encodedAs_formatXF x rfl rfl
  refine ⟨hword, fun htop => ?passesTop, fun htop => ?loads⟩
  case passesTop =>
    exact ⟨_, exec_ldVxMem_of_passesTop ((s.spanPassesTop_iff x).2 htop), hword.raise_faultsWith s _⟩
  case loads =>
    have hfits : ¬ s.spanPassesTop x = true := mt (s.spanPassesTop_iff x).1 (by omega)
    exact ⟨_, exec_ldVxMem_of_fits hfits, fun k hk => (s.reg_loadRegs x k _).trans (if_pos hk), advancesBy_of_next rfl,
      (s.loadRegs_unchangedBut x _).trans (State.advance_unchangedBut _)⟩

end Sys2Proof.Machine

section
/-! SUPPORT. What a draw leaves on the display and in VF, in the pixels that the sprite's set bits fall on (R201, R203). -/

namespace Sys2Proof.Machine

variable {s t u : State} {x y : Reg} {n : Nibble}

/-! ### The pixels under a sprite -/

/-- A sprite has fewer rows than the display, so no pixel is met twice (R201). -/
theorem State.length_spriteBytes_lt (s : State) (n : Nibble) : (s.spriteBytes n).length < 32 := by
  have hn := n.isLt
  rw [s.length_spriteBytes]
  omega

/-- Row `k` of a sprite is the byte at `I + k` (R56, R201). -/
theorem State.getElem_spriteBytes (s : State) (n : Nibble) (k : Nat) (hk : k < (s.spriteBytes n).length) :
    (s.spriteBytes n)[k] = s.mem.read (s.I.toNat + k) :=
  Memory.getElem_readBytes s.mem s.I.toNat n.toNat k hk

/-- The pixels that the rows from I up cover are those that the sprite's set bits fall on. -/
theorem State.spriteCovers_spriteBytes (s : State) (x y : Reg) (n : Nibble) (r : Fin 32) (c : Fin 64) :
    spriteCovers (s.reg x).toNat (s.reg y).toNat (s.spriteBytes n) r c ↔ s.spriteSets x y n r c := by
  simp only [spriteCovers, rowCovers, State.spriteSets, spriteBit, State.getElem_spriteBytes, State.length_spriteBytes,
    exists_prop]

/-- A byte is not zero exactly when one of its bits, counted from the left, is set (R203). -/
theorem byte_ne_zero_iff (b : Byte) : b ≠ 0 ↔ ∃ j < 8, b.getLsbD (7 - j) = true := by
  constructor
  · intro hb
    by_contra hnone
    refine hb (BitVec.eq_of_getLsbD_eq fun i hi => ?_)
    have hbit : ¬ b.getLsbD (7 - (7 - i)) = true := fun h => hnone ⟨7 - i, by omega, h⟩
    rw [Nat.sub_sub_self (by omega)] at hbit
    simpa using hbit
  · rintro ⟨j, -, hbit⟩ rfl
    simp at hbit

/-- A sprite has a pixel exactly when one of its bytes is not zero: every bit falls somewhere, as both axes wrap. -/
theorem State.exists_spriteSets_iff (s : State) (x y : Reg) (n : Nibble) :
    (∃ r c, s.spriteSets x y n r c) ↔ ∃ k < n.toNat, s.mem.read (s.I.toNat + k) ≠ 0x00 := by
  constructor
  · rintro ⟨r, c, k, hk, j, hj, hbit, -, -⟩
    exact ⟨k, hk, (byte_ne_zero_iff _).2 ⟨j, hj, hbit⟩⟩
  · rintro ⟨k, hk, hbyte⟩
    obtain ⟨j, hj, hbit⟩ := (byte_ne_zero_iff _).1 hbyte
    exact ⟨Fin.ofNat 32 _, Fin.ofNat 64 _, k, hk, j, hj, hbit, rfl, rfl⟩

/-- The row 0xFF at column 63, row 31 falls on columns 63 and 0 to 6 of row 31 (R202). -/
theorem State.spriteSets_corner_iff (hx : s.reg x = 63) (hy : s.reg y = 31) (hrow : s.mem.read s.I.toNat = 0xFF)
    (r : Fin 32) (c : Fin 64) : s.spriteSets x y 1 r c ↔ r = 31 ∧ (c = 63 ∨ c.val ≤ 6) := by
  have hfull : ∀ j < 8, (0xFF : Byte).getLsbD (7 - j) = true := by decide
  rw [State.spriteSets, hx, hy]
  constructor
  · rintro ⟨k, hk, j, hj, -, hr, hc⟩
    obtain rfl : k = 0 := Nat.lt_one_iff.1 hk
    have hc : (63 + j) % 64 = c.val := hc
    exact ⟨Fin.ext hr.symm, by omega⟩
  · rintro ⟨rfl, hc⟩
    refine ⟨0, Nat.one_pos, (c.val + 1) % 64, by omega, ?_, rfl, ?_⟩
    · rw [Nat.add_zero, hrow]
      exact hfull _ (by omega)
    · show (63 + (c.val + 1) % 64) % 64 = c.val
      omega

/-! ### The drawing -/

/-- A draw changes exactly the pixels that the sprite's set bits fall on (R201). -/
theorem State.drawSprite_pixel_ne_iff (s : State) (x y : Reg) (n : Nibble) (r : Fin 32) (c : Fin 64) :
    (s.drawSprite x y n).1.pixel r c ≠ s.fb.pixel r c ↔ s.spriteSets x y n r c := by
  have hpixel := (drawRows_spec (s.reg x).toNat (s.reg y).toNat _ (s.length_spriteBytes_lt n) (s.fb, false)).1 r c
  rw [s.spriteCovers_spriteBytes] at hpixel
  rw [ne_eq, Bool.eq_iff_iff, State.drawSprite, hpixel]
  tauto

/-- A draw meets a collision exactly when a set bit of the sprite falls on a pixel that is on (R201). -/
theorem State.drawSprite_collides_iff (s : State) (x y : Reg) (n : Nibble) :
    (s.drawSprite x y n).2 = true ↔ ∃ r c, s.spriteSets x y n r c ∧ s.fb.pixel r c = true := by
  refine (drawRows_spec _ _ _ (s.length_spriteBytes_lt n) (s.fb, false)).2.trans ?_
  simp only [s.spriteCovers_spriteBytes, Bool.false_eq_true, false_or]

/-! ### The instruction -/

theorem flagByte_eq_one_iff (b : Bool) : flagByte b = 1 ↔ b = true := by cases b <;> decide

theorem flagByte_eq_zero_iff (b : Bool) : flagByte b = 0 ↔ b ≠ true := by cases b <;> decide

/-- What Dxyn leaves when its sprite lies in memory (R201). -/
structure DrawsSprite (x y : Reg) (n : Nibble) (s t : State) : Prop where
  pixel_ne_iff : ∀ r c, t.fb.pixel r c ≠ s.fb.pixel r c ↔ s.spriteSets x y n r c
  flag_one_iff : t.reg 0xF = 1 ↔ ∃ r c, s.spriteSets x y n r c ∧ s.fb.pixel r c = true
  flag_zero_iff : t.reg 0xF = 0 ↔ ∀ r c, s.spriteSets x y n r c → s.fb.pixel r c = false
  redraw : t.redraw = true
  advances : advancesBy 2 s t
  frame : unchangedBut [.PC, .reg 0xF, .display, .redraw] s t

/-- DRW with a sprite in memory completes (R201). -/
theorem exec_drw_drawsSprite (x y : Reg) (h : n.toNat = 0 ∨ s.I.toNat + n.toNat - 1 ≤ 0xFFF) :
    ∃ t, exec (.drw x y n) s = .next t ∧ DrawsSprite x y n s t := by
  have hfits : ¬ s.spritePassesTop n = true := mt (s.spritePassesTop_iff n).1 (by omega)
  refine ⟨_, exec_drw_of_fits x y hfits, s.drawSprite_pixel_ne_iff x y n, ?one, ?zero, rfl, advancesBy_of_next rfl,
    ((s.withDisplay_unchangedBut _).trans (State.setReg_unchangedBut _ 0xF _)).trans (State.advance_unchangedBut _)⟩
  case one =>
    rw [State.reg_advance, State.reg_setFlag, if_pos rfl, collisionFlag, flagByte_eq_one_iff, s.drawSprite_collides_iff]
  case zero =>
    rw [State.reg_advance, State.reg_setFlag, if_pos rfl, collisionFlag, flagByte_eq_zero_iff, ne_eq,
      s.drawSprite_collides_iff]
    simp only [not_exists, not_and, Bool.not_eq_true]

theorem DrawsSprite.pixel_of_sets (h : DrawsSprite x y n s t) {r : Fin 32} {c : Fin 64} (hset : s.spriteSets x y n r c) :
    t.fb.pixel r c = !s.fb.pixel r c :=
  Bool.eq_not.2 ((h.pixel_ne_iff r c).2 hset)

theorem DrawsSprite.pixel_of_not_sets (h : DrawsSprite x y n s t) {r : Fin 32} {c : Fin 64}
    (hset : ¬ s.spriteSets x y n r c) : t.fb.pixel r c = s.fb.pixel r c :=
  not_ne_iff.1 (mt (h.pixel_ne_iff r c).1 hset)

/-- A draw moves neither I nor the sprite: with the same coordinates a second draw falls on the same pixels (R202). -/
theorem DrawsSprite.spriteSets_iff (h : DrawsSprite x y n s t) (hx : t.reg x = s.reg x) (hy : t.reg y = s.reg y)
    (r : Fin 32) (c : Fin 64) : t.spriteSets x y n r c ↔ s.spriteSets x y n r c := by
  have hI : t.I = s.I := h.frame .I (by simp)
  have hmem (a : Nat) : t.mem.read a = s.mem.read a := h.frame (.byte a) (by simp)
  simp only [State.spriteSets, hI, hmem, hx, hy]

section Twice
variable (hfirst : DrawsSprite x y n s t) (hsecond : DrawsSprite x y n t u) (hx : t.reg x = s.reg x)
  (hy : t.reg y = s.reg y)
include hfirst hsecond hx hy

/-- Two draws at one place invert each pixel twice or never (R202). -/
theorem DrawsSprite.pixel_of_twice (r : Fin 32) (c : Fin 64) : u.fb.pixel r c = s.fb.pixel r c := by
  have hsame := hfirst.spriteSets_iff hx hy r c
  by_cases hset : s.spriteSets x y n r c
  · rw [hsecond.pixel_of_sets (hsame.2 hset), hfirst.pixel_of_sets hset, Bool.not_not]
  · rw [hsecond.pixel_of_not_sets (mt hsame.1 hset), hfirst.pixel_of_not_sets hset]

/-- The second of two draws at one place meets the pixels that were off before the first (R201). -/
theorem DrawsSprite.flag_one_iff_of_twice :
    u.reg 0xF = 1 ↔ ∃ r c, s.spriteSets x y n r c ∧ s.fb.pixel r c = false := by
  rw [hsecond.flag_one_iff]
  refine exists_congr fun r => exists_congr fun c => ?_
  rw [hfirst.spriteSets_iff hx hy]
  refine and_congr_right fun hset => ?_
  rw [hfirst.pixel_of_sets hset, Bool.not_eq_true']

end Twice

end Sys2Proof.Machine
end

namespace Sys2Proof.Machine

/-- Settles O38: CLS answers the state with the clear display. -/
theorem clearTurnsEveryPixelOff : Obligations.ClearTurnsEveryPixelOff :=
  ⟨encodedAs_of_toNat rfl, fun s => ⟨_, rfl, Framebuffer.pixel_blank, rfl, advancesBy_of_next rfl,
    (s.withDisplay_unchangedBut _).trans (State.advance_unchangedBut _)⟩⟩

/-- Settles O39: DRW faults past the top of memory, and otherwise draws the sprite (`exec_drw_drawsSprite`). -/
theorem drawInvertsAndDetectsCollision : Obligations.DrawInvertsAndDetectsCollision := by
  intro s x y n
  have hword : encodedAs (.drw x y n) (0xD000 + x.val * 0x100 + y.val * 0x10 + n.toNat) :=
    encodedAs_formatXYN x y n rfl rfl
  refine ⟨hword, fun hrows htop => ?passesTop, fun hfits => ?draws⟩
  case passesTop =>
    exact ⟨_, exec_drw_of_passesTop x y ((s.spritePassesTop_iff n).2 ⟨hrows, htop⟩), hword.raise_faultsWith s _⟩
  case draws =>
    obtain ⟨t, ht, hdraw⟩ := exec_drw_drawsSprite x y hfits
    exact ⟨t, ht, fun _ _ => hdraw.pixel_of_sets, fun _ _ => hdraw.pixel_of_not_sets, hdraw.flag_one_iff.2,
      hdraw.flag_zero_iff.2, hdraw.redraw, hdraw.advances, hdraw.frame⟩

/-- Settles O40: both draws fall on the same pixels, so the second undoes the first (`DrawsSprite.pixel_of_twice`) and
collides where the first met a pixel that was off (`DrawsSprite.flag_one_iff_of_twice`). -/
theorem drawingTwiceRestores : Obligations.DrawingTwiceRestores := by
  refine ⟨fun s t u x y n hfits ht hx hy hu => ?twice, fun s t x y htop hx hy hrow ht r c => ?corner⟩
  case twice =>
    obtain ⟨t', ht', hfirst⟩ := exec_drw_drawsSprite x y hfits
    obtain rfl : t' = t := Host.Outcome.next.inj (ht'.symm.trans ht)
    have hI : t'.I = s.I := hfirst.frame .I (by simp)
    obtain ⟨u', hu', hsecond⟩ := exec_drw_drawsSprite (s := t') x y (hI ▸ hfits)
    obtain rfl : u' = u := Host.Outcome.next.inj (hu'.symm.trans hu)
    have hflag := hfirst.flag_one_iff_of_twice hsecond hx hy
    refine ⟨hfirst.pixel_of_twice hsecond hx hy, hflag, fun hfree => ?_⟩
    have hoff := hfirst.flag_zero_iff.1 hfree
    rw [hflag, ← s.exists_spriteSets_iff x y n]
    exact exists_congr fun r => exists_congr fun c => and_iff_left_of_imp (hoff r c)
  case corner =>
    obtain ⟨t', ht', hdraw⟩ := exec_drw_drawsSprite (n := 1) x y (.inr htop)
    obtain rfl : t' = t := Host.Outcome.next.inj (ht'.symm.trans ht)
    exact (hdraw.pixel_ne_iff r c).trans (State.spriteSets_corner_iff hx hy hrow r c)

end Sys2Proof.Machine

section
/-! SUPPORT. The answers of the key skips, and what a press of a key leaves (R220, R221, R226, R227, R322). -/

namespace Sys2Proof.Machine

variable {s : State} {r x : Reg}

/-! ### The key skips -/

/-- With a key's number in Vx, a key skip is the skip by that key's bit (R220, R221). -/
theorem State.skipOnKey_of_key (i : Instr) (held : Bool) (h : (s.reg x).toNat ≤ 0xF) :
    s.skipOnKey i x held = .next (s.skipIf (s.keypad.getLsbD (s.reg x).toNat == held)) := by
  obtain ⟨hbig, -⟩ | ⟨k, hk, ht⟩ := s.skipOnKey_cases i x held
  · omega
  · rw [ht, hk, State.keyHeld]

/-- With a number above 0xF in Vx, a key skip faults (R220, R221). -/
theorem State.skipOnKey_of_noKey (i : Instr) (held : Bool) (h : 0xF < (s.reg x).toNat) :
    s.skipOnKey i x held = .next (s.raise .keyOutOfRange i) := by
  obtain ⟨-, ht⟩ | ⟨k, hk, -⟩ := s.skipOnKey_cases i x held
  · exact ht
  · omega

/-! ### The keypad -/

/-- A key's mask is that key's bit alone (R29). -/
theorem getLsbD_keyMask (j k : Fin 16) : (keyMask k).getLsbD j = decide (j = k) := by
  have hbit := BitVec.getLsbD_twoPow (w := 16) k j
  rw [BitVec.twoPow_eq] at hbit
  rw [keyMask, hbit]
  simp [Fin.ext_iff, eq_comm]

theorem State.withKeypad_unchangedBut (s : State) (v : BitVec 16) :
    unchangedBut [.keypad] s { s with keypad := v } := by
  intro p hp
  cases p with
  | keypad => simp at hp
  | _ => rfl

/-! ### A press -/

/-- A press while the core does not wait sets the key's bit and delivers nothing (R227). -/
theorem State.setKey_of_running (k : Fin 16) (h : s.wait = .running) :
    s.setKey k = { s with keypad := s.keypad ||| keyMask k } := by
  simp only [State.setKey, State.deliverKey, h]

/-- A press while the core waits sets the key's bit, writes the waiting register and ends the wait (R226). -/
theorem State.setKey_of_waiting (k : Fin 16) (h : s.wait = .waitingForKey r) :
    s.setKey k =
      { ({ s with keypad := s.keypad ||| keyMask k } : State).setReg r (BitVec.ofNat 8 k) with wait := .running } := by
  simp only [State.setKey, State.deliverKey, h]

/-- A press sets the key's bit and no other, whether the core waits or not (R322). -/
theorem State.keyHeld_setKey (s : State) (k j : Fin 16) :
    (s.setKey k).keyHeld j = (decide (j = k) || s.keyHeld j) := by
  have hkeypad : (s.setKey k).keypad = s.keypad ||| keyMask k := by
    cases h : s.wait with
    | running => rw [State.setKey_of_running k h]
    | waitingForKey r => rw [State.setKey_of_waiting k h, State.setReg_keypad]
  rw [State.keyHeld, hkeypad, BitVec.getLsbD_or, getLsbD_keyMask, Bool.or_comm, State.keyHeld]

/-- A press that ends a wait leaves the key's number in the waiting register (R226). -/
theorem State.reg_setKey_of_waiting (k : Fin 16) (h : s.wait = .waitingForKey r) :
    ((s.setKey k).reg r).toNat = k.val := by
  have hkey : (s.setKey k).reg r = BitVec.ofNat 8 k := by
    rw [State.setKey_of_waiting k h]
    exact (State.reg_setReg _ r r _).trans (if_pos rfl)
  rw [hkey, BitVec.toNat_ofNat]
  omega

theorem State.setKey_unchangedBut_of_waiting (k : Fin 16) (h : s.wait = .waitingForKey r) :
    unchangedBut [.reg r, .wait, .keypad] s (s.setKey k) := by
  rw [State.setKey_of_waiting k h]
  exact (((s.withKeypad_unchangedBut _).trans (State.setReg_unchangedBut _ r _)).trans
    (State.withWait_unchangedBut _ .running)).mono (by simp)

/-! ### A wait -/

/-- A step of a core that waits for a key does nothing (R226). -/
theorem step_of_waiting (h : s.wait = .waitingForKey r) : step s = .next s :=
  step_of_not_active fun ⟨_, hrunning⟩ => nomatch h.symm.trans hrunning

end Sys2Proof.Machine
end

namespace Sys2Proof.Machine

/-- Settles O44: the step of a waiting core is the identity (`step_of_waiting`), so every run of it is; a press delivers its
key (`State.setKey_of_waiting`), and neither a release nor a tick writes the wait. -/
theorem keyWaitEndsOnlyByPress : Obligations.KeyWaitEndsOnlyByPress := fun s _ k hwait =>
  ⟨run_of_step_eq (M := core) (step_of_waiting hwait), by rw [State.setKey_of_waiting k hwait],
    State.reg_setKey_of_waiting k hwait, s.keyHeld_setKey k, State.setKey_unchangedBut_of_waiting k hwait, hwait, hwait⟩

/-- Settles O41: up to 0xF both skip by the key's bit (`State.skipOnKey_of_key`), and above it both fault
(`State.skipOnKey_of_noKey`). -/
theorem keySkipsTestTheKeypad : Obligations.KeySkipsTestTheKeypad := by
  intro s x
  have hskp : encodedAs (.skp x) (0xE09E + x.val * 0x100) := encodedAs_formatXF x rfl rfl
  have hsknp : encodedAs (.sknp x) (0xE0A1 + x.val * 0x100) := encodedAs_formatXF x rfl rfl
  refine ⟨⟨hskp, fun hkey => ⟨_, State.skipOnKey_of_key _ true hkey, ?held, s.skipIf_unchangedBut _⟩,
      fun hbig => ⟨_, State.skipOnKey_of_noKey _ true hbig, hskp.raise_faultsWith s _⟩⟩,
    hsknp, fun hkey => ⟨_, State.skipOnKey_of_key _ false hkey, ?notHeld, s.skipIf_unchangedBut _⟩,
      fun hbig => ⟨_, State.skipOnKey_of_noKey _ false hbig, hsknp.raise_faultsWith s _⟩⟩
  case held => exact State.skipIf_advancesBy_of_iff beq_iff_eq
  case notHeld => exact State.skipIf_advancesBy_of_iff_not (beq_iff_eq.trans Bool.eq_false_iff)

/-- Settles O42: each answers the state with its one transfer done and PC past the instruction. -/
theorem timerTransfers : Obligations.TimerTransfers := fun s x =>
  ⟨⟨encodedAs_formatXF x rfl rfl, _, rfl, s.finish_reg x s.DT, advancesBy_of_next rfl, s.finish_unchangedBut x s.DT⟩,
    ⟨encodedAs_formatXF x rfl rfl, _, rfl, rfl, advancesBy_of_next rfl,
      (s.withDT_unchangedBut _).trans (State.advance_unchangedBut _)⟩,
    encodedAs_formatXF x rfl rfl, _, rfl, rfl, advancesBy_of_next rfl,
      (s.withST_unchangedBut _).trans (State.advance_unchangedBut _)⟩

/-- Settles O43: LD Vx, K writes the wait and PC alone, and reads no key. -/
theorem keyWaitBegins : Obligations.KeyWaitBegins := fun s x =>
  ⟨encodedAs_formatXF x rfl rfl, _, rfl, rfl, advancesBy_of_next rfl,
    (s.withWait_unchangedBut _).trans (State.advance_unchangedBut _)⟩

/-- Settles O45: without a wait a press is the write of the keypad alone (`State.setKey_of_running`). -/
theorem pressWhileRunningSetsOnlyTheKey : Obligations.PressWhileRunningSetsOnlyTheKey := by
  intro s k hrunning
  refine ⟨s.keyHeld_setKey k, ?_⟩
  rw [State.setKey_of_running k hrunning]
  exact s.withKeypad_unchangedBut _

end Sys2Proof.Machine

namespace Sys2Proof.Machine

/-- Settles O18: a step does nothing, takes a fault whose record fits, or completes an instruction (`step_effect`), and each
keeps the invariant. -/
theorem stepKeepsInvariant : Obligations.StepKeepsInvariant := fun _ _ hs hstep => hs.of_step hstep

end Sys2Proof.Machine

section
/-! SUPPORT. The record a step latches (R301, R302), and the halted state under every event (R303, R327). -/

namespace Sys2Proof.Machine

variable {s t : State}

/-! ### What a step latches -/

/-- A step keeps the latch, or takes a fault: one of the fetch check with no opcode, or another with the fetched word. -/
theorem step_keepsHalt_or_takesFault (s : State) :
    (∃ t, step s = .next t ∧ t.halt = s.halt) ∨
    (∃ c, checkFetch s.PC = some c ∧ step s = .next (s.takeFault c none)) ∨
    ∃ c, c ≠ .fetchOutOfRange ∧ c ≠ .misalignedFetch ∧ step s = .next (s.takeFault c (some s.fetchWord)) := by
  obtain ⟨-, hstep⟩ | ⟨-, c, hc, hstep⟩ | ⟨-, -, -, hstep⟩ | ⟨-, -, i, hi, hstep⟩ := step_cases s
  · exact .inl ⟨s, hstep, rfl⟩
  · exact .inr (.inl ⟨c, hc, hstep⟩)
  · exact .inr (.inr ⟨.decodeError, nofun, nofun, hstep⟩)
  · obtain ⟨c, hrange, halign, hexec⟩ | ⟨t, hexec, ht⟩ := exec_faultsOrCompletes i s
    · rw [State.raise, encode_of_decode hi] at hexec
      exact .inr (.inr ⟨c, hrange, halign, hstep.trans hexec⟩)
    · exact .inl ⟨t, hstep.trans hexec, ht.halt⟩

/-- The fetch check has no failure but the two faults of the fetch. -/
theorem eq_of_checkFetch {pc : Word} {c : FaultCause} (h : checkFetch pc = some c) :
    c = .fetchOutOfRange ∨ c = .misalignedFetch :=
  (opcodeFits_of_checkFetch h).1 rfl

/-! ### The halted state -/

/-- A step of a halted core does nothing (R303). -/
theorem step_of_halted {record : FaultRecord} (h : s.halt = some record) : step s = .next s :=
  step_of_not_active fun ⟨hnone, _⟩ => nomatch h.symm.trans hnone

/-- A run that must not fault stops at a halted core, with its record (R303). -/
theorem noFaultStep_of_halted {record : FaultRecord} (h : s.halt = some record) :
    noFaultStep s = .fault (.halted record) := by
  simp only [noFaultStep, step_of_halted h, h]

/-- Every event leaves a halted core halted, with the same record (R303, R327). -/
theorem applyEvent_keeps_record {e : Event} {record : FaultRecord} (h : s.halt = some record)
    (he : applyEvent e s = .next t) : t.halt = some record := by
  obtain rfl | ⟨u, hu, hacts⟩ := applyEvent_cases e s
  · obtain rfl := Host.Outcome.next.inj ((step_of_halted h).symm.trans he)
    exact h
  · obtain rfl := Host.Outcome.next.inj (hu.symm.trans he)
    exact hacts.halt.trans h

/-- A load reads and writes memory alone, so it acts under every value of the latch (R327). -/
theorem State.load_withHalt (s : State) (halt : Option FaultRecord) (bytes : List Byte) :
    (State.load { s with halt := halt } bytes).2 = { (s.load bytes).2 with halt := halt } := by
  by_cases hlen : bytes.length ≤ romMax
  · rw [State.load_of_fits hlen, State.load_of_fits hlen]
  · rw [State.load_of_tooLong (by omega), State.load_of_tooLong (by omega)]

/-- A press reads the wait alone, so it acts under every value of the latch (R327). -/
theorem State.setKey_withHalt (s : State) (halt : Option FaultRecord) (k : Fin 16) :
    State.setKey { s with halt := halt } k = { s.setKey k with halt := halt } := by
  simp only [State.setKey, State.deliverKey]
  cases s.wait with
  | running => rfl
  | waitingForKey r => rfl

/-- An operation of the host does under every value of the latch what it does under another (R327). -/
theorem applyEvent_withHalt {e : Event} (hhost : e ≠ .step) (he : applyEvent e s = .next t) (halt : Option FaultRecord) :
    applyEvent e { s with halt := halt } = .next { t with halt := halt } := by
  cases e with
  | step => exact absurd rfl hhost
  | load bytes =>
    obtain rfl := Host.Outcome.next.inj he
    exact congrArg Host.Outcome.next (s.load_withHalt halt bytes)
  | setKey k =>
    obtain rfl := Host.Outcome.next.inj he
    exact congrArg Host.Outcome.next (s.setKey_withHalt halt k)
  | releaseKey _ | tickTimers | ackRedraw =>
    obtain rfl := Host.Outcome.next.inj he
    rfl

end Sys2Proof.Machine
end

namespace Sys2Proof.Machine

/-- Settles O10: a step that latches a record has taken a fault, and nothing else. -/
theorem faultEntryIsPrecise : Obligations.FaultEntryIsPrecise := by
  intro s t hhalt hstep record hrecord
  obtain ⟨u, hu, hkeeps⟩ | ⟨c, hc, hu⟩ | ⟨c, hrange, halign, hu⟩ := step_keepsHalt_or_takesFault s
  · obtain rfl := Host.Outcome.next.inj (hu.symm.trans hstep)
    exact nomatch (hkeeps.trans hhalt).symm.trans hrecord
  · obtain rfl := Host.Outcome.next.inj (hu.symm.trans hstep)
    obtain rfl := Option.some.inj hrecord
    refine ⟨(s.takeFault_faultsWith c _).2, rfl, fun _ => rfl, fun hrange halign => ?_⟩
    exact absurd (eq_of_checkFetch hc) (not_or.2 ⟨hrange, halign⟩)
  · obtain rfl := Host.Outcome.next.inj (hu.symm.trans hstep)
    obtain rfl := Option.some.inj hrecord
    refine ⟨(s.takeFault_faultsWith c _).2, rfl, fun hfetch => ?_, fun _ _ => rfl⟩
    exact absurd hfetch (not_or.2 ⟨hrange, halign⟩)

/-- Settles O12: every event keeps the record, by induction on the events, and no operation of the host reads the latch. -/
theorem haltIsAbsorbing : Obligations.HaltIsAbsorbing := by
  refine ⟨fun events s t record hs h => ?_, fun e s t record hhost he => applyEvent_withHalt hhost he (some record)⟩
  have ht : t.halt = some record :=
    runEvents_keeps (P := fun u => u.halt = some record) (fun _ _ _ hu he => applyEvent_keeps_record hu he) hs h
  exact ⟨ht, step_of_halted ht, noFaultStep_of_halted ht, fun hended => nomatch ht.symm.trans hended.1.1⟩

end Sys2Proof.Machine

section
/-! SUPPORT. The table of R300 read by instruction: when each instruction faults, and with which cause. -/

namespace Sys2Proof.Machine

variable {s : State} {i : Instr} {c : FaultCause}

/-- The rows of R300 that instructions raise: `i` executed in `s` raises the cause. -/
inductive State.InstrFaults (s : State) : Instr → FaultCause → Prop where
  | ret : s.SP.val = 0 → s.InstrFaults .ret .stackUnderflow
  | call (nnn : Addr12) : s.SP.val = 16 → s.InstrFaults (.call nnn) .stackOverflow
  | drw (x y : Reg) (n : Nibble) : 1 ≤ n.toNat → 0xFFF < s.I.toNat + n.toNat - 1 →
      s.InstrFaults (.drw x y n) .memoryOutOfRange
  | ldBVxTop (x : Reg) : 0xFFF < s.I.toNat + 2 → s.InstrFaults (.ldBVx x) .memoryOutOfRange
  | ldMemVxTop (x : Reg) : 0xFFF < s.I.toNat + x.val → s.InstrFaults (.ldMemVx x) .memoryOutOfRange
  | ldVxMem (x : Reg) : 0xFFF < s.I.toNat + x.val → s.InstrFaults (.ldVxMem x) .memoryOutOfRange
  | ldBVxReserved (x : Reg) : s.I.toNat < 0x200 → s.InstrFaults (.ldBVx x) .reservedWrite
  | ldMemVxReserved (x : Reg) : s.I.toNat < 0x200 → s.InstrFaults (.ldMemVx x) .reservedWrite
  | skp (x : Reg) : 0xF < (s.reg x).toNat → s.InstrFaults (.skp x) .keyOutOfRange
  | sknp (x : Reg) : 0xF < (s.reg x).toNat → s.InstrFaults (.sknp x) .keyOutOfRange

/-- An instruction has at most one fault: a store that passes the top of memory does not begin below 0x200 (R304). -/
theorem State.InstrFaults.unique {c' : FaultCause} (h : s.InstrFaults i c) (h' : s.InstrFaults i c') : c = c' := by
  cases h with
  | ldBVxTop x htop | ldMemVxTop x htop =>
    cases h'
    · rfl
    · omega
  | ldBVxReserved x hlow | ldMemVxReserved x hlow =>
    cases h'
    · omega
    · rfl
  | _ =>
    cases h'
    rfl

/-- A row of an instruction is a row of R300 when PC addresses the instruction. -/
theorem State.InstrFaults.condition (h : s.InstrFaults i c) (hi : s.decodesTo i) : c.condition s := by
  cases h with
  | ret hSP => exact ⟨hi, hSP⟩
  | call nnn hSP => exact ⟨nnn, hi, hSP⟩
  | drw x y n hrow htop => exact .inl ⟨x, y, n, hi, hrow, htop⟩
  | ldBVxTop x htop => exact .inr (.inl ⟨x, hi, htop⟩)
  | ldMemVxTop x htop => exact .inr (.inr ⟨x, .inl hi, htop⟩)
  | ldVxMem x htop => exact .inr (.inr ⟨x, .inr hi, htop⟩)
  | ldBVxReserved x hlow => exact ⟨x, .inl hi, hlow⟩
  | ldMemVxReserved x hlow => exact ⟨x, .inr hi, hlow⟩
  | skp x hkey => exact ⟨x, .inl hi, hkey⟩
  | sknp x hkey => exact ⟨x, .inr hi, hkey⟩

/-- The condition of each row of R300: the fetch check fails, the word is illegal, or the instruction at PC faults. -/
theorem FaultCause.condition_iff (s : State) (c : FaultCause) :
    c.condition s ↔ checkFetch s.PC = some c ∨
      (c = .decodeError ∧ fetchable s.PC ∧ ∀ i, decode s.fetchWord ≠ .ok i) ∨
      ∃ i, s.decodesTo i ∧ s.InstrFaults i c := by
  constructor
  · intro h
    cases c with
    | misalignedFetch => exact .inl ((checkFetch_eq_misaligned _).2 h)
    | fetchOutOfRange => exact .inl ((checkFetch_eq_outOfRange _).2 h)
    | decodeError => exact .inr (.inl ⟨rfl, h⟩)
    | stackOverflow =>
      obtain ⟨nnn, hi, hSP⟩ := h
      exact .inr (.inr ⟨_, hi, .call nnn hSP⟩)
    | stackUnderflow => exact .inr (.inr ⟨_, h.1, .ret h.2⟩)
    | memoryOutOfRange =>
      obtain ⟨x, y, n, hi, hrow, htop⟩ | ⟨x, hi, htop⟩ | ⟨x, hi | hi, htop⟩ := h
      · exact .inr (.inr ⟨_, hi, .drw x y n hrow htop⟩)
      · exact .inr (.inr ⟨_, hi, .ldBVxTop x htop⟩)
      · exact .inr (.inr ⟨_, hi, .ldMemVxTop x htop⟩)
      · exact .inr (.inr ⟨_, hi, .ldVxMem x htop⟩)
    | reservedWrite =>
      obtain ⟨x, hi | hi, hlow⟩ := h
      · exact .inr (.inr ⟨_, hi, .ldBVxReserved x hlow⟩)
      · exact .inr (.inr ⟨_, hi, .ldMemVxReserved x hlow⟩)
    | keyOutOfRange =>
      obtain ⟨x, hi | hi, hkey⟩ := h
      · exact .inr (.inr ⟨_, hi, .skp x hkey⟩)
      · exact .inr (.inr ⟨_, hi, .sknp x hkey⟩)
  · rintro (hc | ⟨rfl, h⟩ | ⟨i, hi, hfault⟩)
    · obtain rfl | rfl := eq_of_checkFetch hc
      · exact (checkFetch_eq_outOfRange _).1 hc
      · exact (checkFetch_eq_misaligned _).1 hc
    · exact h
    · exact hfault.condition hi

/-! ### Every instruction faults when its rows say so -/

/-- The instruction takes a fault of its rows, or none of them holds and it keeps the latch. -/
def meetsRows (i : Instr) (s : State) (o : Host.Outcome State Fault Refusal) : Prop :=
  (∃ c, s.InstrFaults i c ∧ o = .next (s.raise c i)) ∨
  ((∀ c, ¬ s.InstrFaults i c) ∧ ∃ t, o = .next t ∧ t.halt = s.halt)

/-- A store meets rows that speak of its span and its first byte (R53, R54). -/
theorem storeAtI_meetsRows {bytes : List Byte} (hlen : 0 < bytes.length)
    (htop : 0x1000 < s.I.toNat + bytes.length → s.InstrFaults i .memoryOutOfRange)
    (hlow : s.I.toNat < 0x200 → s.InstrFaults i .reservedWrite)
    (hnone : s.I.toNat + bytes.length ≤ 0x1000 → 0x200 ≤ s.I.toNat → ∀ c, ¬ s.InstrFaults i c) :
    meetsRows i s (s.storeAtI i bytes) := by
  obtain ⟨hpast, ht⟩ | ⟨-, hres, ht⟩ | ⟨hfits, hprogram, ht⟩ := s.storeAtI_cases i bytes hlen
  · exact .inl ⟨_, htop hpast, ht⟩
  · exact .inl ⟨_, hlow hres, ht⟩
  · exact .inr ⟨hnone hfits hprogram, _, ht, rfl⟩

theorem exec_ldBVx_meetsRows (x : Reg) (s : State) : meetsRows (.ldBVx x) s (exec (.ldBVx x) s) := by
  have hlen : (bcdDigits (s.reg x)).length = 3 := length_bcdDigits _
  refine storeAtI_meetsRows (bytes := bcdDigits (s.reg x)) (by omega) (fun htop => .ldBVxTop x (by omega))
    (.ldBVxReserved x) fun hfits hprogram c hc => ?_
  cases hc <;> omega

theorem exec_ldMemVx_meetsRows (x : Reg) (s : State) : meetsRows (.ldMemVx x) s (exec (.ldMemVx x) s) := by
  have hlen := s.length_regsUpTo x
  refine storeAtI_meetsRows (bytes := s.regsUpTo x) (by omega) (fun htop => .ldMemVxTop x (by omega))
    (.ldMemVxReserved x) fun hfits hprogram c hc => ?_
  cases hc <;> omega

/-- A key skip meets rows that speak of a number above 0xF in Vx (R220, R221). -/
theorem skipOnKey_meetsRows {x : Reg} (held : Bool) (hkey : 0xF < (s.reg x).toNat → s.InstrFaults i .keyOutOfRange)
    (hnone : (s.reg x).toNat ≤ 0xF → ∀ c, ¬ s.InstrFaults i c) : meetsRows i s (s.skipOnKey i x held) := by
  obtain ⟨hbig, ht⟩ | ⟨k, hk, ht⟩ := s.skipOnKey_cases i x held
  · exact .inl ⟨_, hkey hbig, ht⟩
  · exact .inr ⟨hnone (by omega), _, ht, rfl⟩

theorem exec_ret_meetsRows (s : State) : meetsRows .ret s (exec .ret s) := by
  by_cases hempty : s.SP.val = 0
  · exact .inl ⟨_, .ret hempty, exec_ret_of_empty hempty⟩
  · exact .inr ⟨by rintro c ⟨⟩; contradiction, _, exec_ret_of_frame hempty, rfl⟩

theorem exec_call_meetsRows (nnn : Addr12) (s : State) : meetsRows (.call nnn) s (exec (.call nnn) s) := by
  by_cases hroom : s.SP.val < 16
  · exact .inr ⟨by rintro c ⟨⟩; omega, _, exec_call_of_room nnn hroom, rfl⟩
  · exact .inl ⟨_, .call nnn (by omega), exec_call_of_full nnn hroom⟩

theorem exec_drw_meetsRows (x y : Reg) (n : Nibble) (s : State) : meetsRows (.drw x y n) s (exec (.drw x y n) s) := by
  have hrows := s.spritePassesTop_iff n
  by_cases htop : s.spritePassesTop n = true
  · obtain ⟨hrow, hlast⟩ := hrows.1 htop
    exact .inl ⟨_, .drw x y n hrow hlast, exec_drw_of_passesTop x y htop⟩
  · refine .inr ⟨?_, _, exec_drw_of_fits x y htop, rfl⟩
    rintro c ⟨⟩
    exact htop (hrows.2 ⟨‹_›, ‹_›⟩)

theorem exec_ldVxMem_meetsRows (x : Reg) (s : State) : meetsRows (.ldVxMem x) s (exec (.ldVxMem x) s) := by
  have hrows := s.spanPassesTop_iff x
  by_cases htop : s.spanPassesTop x = true
  · exact .inl ⟨_, .ldVxMem x (hrows.1 htop), exec_ldVxMem_of_passesTop htop⟩
  · refine .inr ⟨?_, _, exec_ldVxMem_of_fits htop, rfl⟩
    rintro c ⟨⟩
    exact htop (hrows.2 ‹_›)

/-- Every instruction faults exactly when one of its rows holds. -/
theorem exec_meetsRows (i : Instr) (s : State) : meetsRows i s (exec i s) := by
  cases i with
  | ret => exact exec_ret_meetsRows s
  | call nnn => exact exec_call_meetsRows nnn s
  | drw x y n => exact exec_drw_meetsRows x y n s
  | skp x => exact skipOnKey_meetsRows true (.skp x) (by rintro hkey c ⟨⟩; omega)
  | sknp x => exact skipOnKey_meetsRows false (.sknp x) (by rintro hkey c ⟨⟩; omega)
  | ldBVx x => exact exec_ldBVx_meetsRows x s
  | ldMemVx x => exact exec_ldMemVx_meetsRows x s
  | ldVxMem x => exact exec_ldVxMem_meetsRows x s
  -- No row speaks of the rest, and they keep the latch.
  | _ => exact .inr ⟨nofun, _, rfl, rfl⟩

/-! ### Every step faults when the table says so -/

/-- When the fetch check fails, its fault is the one whose condition holds. -/
theorem condition_iff_of_checkFetch {f : FaultCause} (h : checkFetch s.PC = some f) : c.condition s ↔ c = f := by
  have hPC : ¬ fetchable s.PC := fun hPC => nomatch h.symm.trans ((checkFetch_eq_none _).2 hPC)
  rw [FaultCause.condition_iff]
  simp [h, hPC, State.decodesTo, eq_comm]

/-- When an illegal word is fetched, DecodeError is the fault whose condition holds. -/
theorem condition_iff_of_illegal (hPC : fetchable s.PC) (h : ∀ i, decode s.fetchWord ≠ .ok i) :
    c.condition s ↔ c = .decodeError := by
  rw [FaultCause.condition_iff]
  simp [(checkFetch_eq_none _).2 hPC, hPC, h, State.decodesTo]

/-- When an instruction is fetched, the faults whose conditions hold are the instruction's. -/
theorem condition_iff_of_decodesTo (hi : s.decodesTo i) : c.condition s ↔ s.InstrFaults i c := by
  obtain ⟨hPC, hd⟩ := hi
  rw [FaultCause.condition_iff]
  simp [(checkFetch_eq_none _).2 hPC, hPC, hd, State.decodesTo]

/-- A step of an active core takes the one fault whose condition holds, or none holds and it keeps the latch. -/
theorem step_meetsTable (h : s.active) :
    (∃ f o, step s = .next (s.takeFault f o) ∧ ∀ c : FaultCause, c.condition s ↔ c = f) ∨
    ∃ t, step s = .next t ∧ t.halt = none ∧ ∀ c : FaultCause, ¬ c.condition s := by
  obtain ⟨hidle, -⟩ | ⟨-, f, hf, hstep⟩ | ⟨-, hPC, ⟨e, he⟩, hstep⟩ | ⟨-, hPC, i, hi, hstep⟩ := step_cases s
  · exact absurd h hidle
  · exact .inl ⟨f, none, hstep, fun c => condition_iff_of_checkFetch hf⟩
  · exact .inl ⟨_, _, hstep, fun c => condition_iff_of_illegal hPC fun i hi => nomatch he.symm.trans hi⟩
  · have hcond (c : FaultCause) : c.condition s ↔ s.InstrFaults i c := condition_iff_of_decodesTo ⟨hPC, hi⟩
    obtain ⟨f, hf, hexec⟩ | ⟨hnone, t, hexec, ht⟩ := exec_meetsRows i s
    · exact .inl ⟨f, _, hstep.trans hexec, fun c => (hcond c).trans ⟨fun hc => hc.unique hf, fun hc => hc ▸ hf⟩⟩
    · exact .inr ⟨t, hstep.trans hexec, ht.trans h.1, fun c hc => hnone c ((hcond c).1 hc)⟩

end Sys2Proof.Machine
end

namespace Sys2Proof.Machine

/-- Settles O11: a step takes the one fault whose condition holds, or none holds (`step_meetsTable`). -/
theorem faultsAreExactlyTheTable : Obligations.FaultsAreExactlyTheTable := by
  refine ⟨fun s t hact hstep cause => ?table, rfl, fun t hhalt => ?halted⟩
  case table =>
    obtain ⟨f, o, hu, hcond⟩ | ⟨u, hu, hnone, hcond⟩ := step_meetsTable hact
    · obtain rfl := Host.Outcome.next.inj (hu.symm.trans hstep)
      simp [hcond, eq_comm]
    · obtain rfl := Host.Outcome.next.inj (hu.symm.trans hstep)
      simp [hcond, hnone]
  case halted =>
    obtain ⟨record, hrecord⟩ := Option.ne_none_iff_exists'.1 hhalt
    exact step_of_halted hrecord

end Sys2Proof.Machine

section
/-! SUPPORT. The timers under every event (R310, R311), and what the host's other operations leave (R321, R323, R325). -/

namespace Sys2Proof.Machine

variable {s t : State}

/-! ### Ticks -/

/-- A tick lowers a timer by 1, and not below 0 (R310). -/
theorem countDown_toNat (v : Byte) : (countDown v).toNat = v.toNat - 1 := by
  unfold countDown
  split
  · subst v
    rfl
  · bv_omega

theorem State.tickTimers_unchangedBut (s : State) : unchangedBut [.DT, .ST] s s.tickTimers :=
  unchangedBut.mono
    ((s.withDT_unchangedBut (countDown s.DT)).trans (State.withST_unchangedBut _ (countDown s.ST))) (by simp)

/-! ### Loads of the timers -/

/-- Fx15 alone may write DT, and Fx18 alone ST (R224, R225). -/
theorem timer_mem_mayWrite (s : State) (i : Instr) :
    (Part.DT ∈ s.mayWrite i → ∃ x, i = .ldDtVx x) ∧ (Part.ST ∈ s.mayWrite i → ∃ x, i = .ldStVx x) := by
  cases i with
  | ldDtVx x => exact ⟨fun _ => ⟨x, rfl⟩, fun h => by simp [State.mayWrite] at h⟩
  | ldStVx x => exact ⟨fun h => by simp [State.mayWrite] at h, fun _ => ⟨x, rfl⟩⟩
  | call nnn => by_cases hroom : s.SP.val < 16 <;> simp [State.mayWrite, hroom]
  | _ => simp [State.mayWrite, bytesFromI, regsThrough]

/-- A part other than the latch is as before a step, unless the instruction at PC may write it. -/
theorem step_same_or_mayWrite (h : step s = .next t) {p : Part} (hp : p ≠ .halt) :
    p.same s t ∨ ∃ i, s.decodesTo i ∧ p ∈ s.mayWrite i ∧ exec i s = .next t := by
  obtain ⟨-, hstep⟩ | ⟨-, c, -, hstep⟩ | ⟨-, -, -, hstep⟩ | ⟨-, hPC, i, hi, hstep⟩ := step_cases s
  · obtain rfl := Host.Outcome.next.inj (hstep.symm.trans h)
    exact .inl (p.same_refl s)
  · obtain rfl := Host.Outcome.next.inj (hstep.symm.trans h)
    exact .inl ((s.takeFault_faultsWith _ _).2 p (by simpa using hp))
  · obtain rfl := Host.Outcome.next.inj (hstep.symm.trans h)
    exact .inl ((s.takeFault_faultsWith _ _).2 p (by simpa using hp))
  · have hexec : exec i s = .next t := hstep.symm.trans h
    by_cases hmem : p ∈ s.mayWrite i
    · exact .inr ⟨i, ⟨hPC, hi⟩, hmem, hexec⟩
    · exact .inl (instructionsWriteOnlyTheirParts i s t hexec p hmem)

/-- A press writes no timer (R226, R227). -/
theorem State.setKey_timers (s : State) (k : Fin 16) : (s.setKey k).DT = s.DT ∧ (s.setKey k).ST = s.ST := by
  cases h : s.wait with
  | running => exact State.setKey_of_running k h ▸ ⟨rfl, rfl⟩
  | waitingForKey r => exact State.setKey_of_waiting k h ▸ ⟨rfl, rfl⟩

/-- A load writes no timer (R321). -/
theorem State.load_timers (s : State) (bytes : List Byte) :
    (s.load bytes).2.DT = s.DT ∧ (s.load bytes).2.ST = s.ST := by
  by_cases hlen : bytes.length ≤ romMax
  · exact State.load_of_fits hlen ▸ ⟨rfl, rfl⟩
  · exact State.load_of_tooLong (Nat.lt_of_not_le hlen) ▸ ⟨rfl, rfl⟩

/-- No operation of the host counts a timer up (R311). -/
theorem applyEvent_timers_le {e : Event} (hhost : e ≠ .step) (he : applyEvent e s = .next t) :
    t.DT.toNat ≤ s.DT.toNat ∧ t.ST.toNat ≤ s.ST.toNat := by
  cases e with
  | step => exact absurd rfl hhost
  | load bytes =>
    obtain rfl := Host.Outcome.next.inj he
    obtain ⟨hDT, hST⟩ := s.load_timers bytes
    rw [hDT, hST]
    exact ⟨le_rfl, le_rfl⟩
  | setKey k =>
    obtain rfl := Host.Outcome.next.inj he
    obtain ⟨hDT, hST⟩ := s.setKey_timers k
    rw [hDT, hST]
    exact ⟨le_rfl, le_rfl⟩
  | tickTimers =>
    obtain rfl := Host.Outcome.next.inj he
    exact ⟨(countDown_toNat s.DT).trans_le (Nat.sub_le _ 1), (countDown_toNat s.ST).trans_le (Nat.sub_le _ 1)⟩
  | releaseKey _ | ackRedraw =>
    obtain rfl := Host.Outcome.next.inj he
    exact ⟨le_rfl, le_rfl⟩

/-! ### Release, acknowledge and load -/

/-- A release clears the key's bit and no other (R323). -/
theorem State.keyHeld_releaseKey (s : State) (k j : Fin 16) :
    (s.releaseKey k).keyHeld j = (!decide (j = k) && s.keyHeld j) := by
  show (s.keypad &&& ~~~keyMask k).getLsbD j = _
  rw [BitVec.getLsbD_and, BitVec.getLsbD_not, getLsbD_keyMask, Bool.and_comm, State.keyHeld]
  simp

/-- Two keypads with the same keys held are equal (R29). -/
theorem keypad_eq_of_keyHeld (h : ∀ j, t.keyHeld j = s.keyHeld j) : t.keypad = s.keypad :=
  BitVec.eq_of_getLsbD_eq fun j hj => h ⟨j, hj⟩

/-- A release of a key that is up is no change (R323). -/
theorem State.releaseKey_of_up {k : Fin 16} (h : s.keyHeld k = false) : s.releaseKey k = s := by
  have hkeypad : (s.releaseKey k).keypad = s.keypad := by
    refine keypad_eq_of_keyHeld fun j => ?_
    rw [State.keyHeld_releaseKey]
    by_cases hj : j = k
    · simp [hj, h]
    · simp [hj]
  show { s with keypad := (s.releaseKey k).keypad } = s
  rw [hkeypad]

theorem State.ackRedraw_unchangedBut (s : State) : unchangedBut [.redraw] s s.ackRedraw := by
  intro p hp
  cases p with
  | redraw => simp at hp
  | _ => rfl

/-- Bytes written from an address up change no other part (R58). -/
theorem State.writeBytesAt_unchangedBut (s : State) (a : Nat) (bytes : List Byte) :
    unchangedBut ((List.range bytes.length).map fun k => .byte (a + k)) s { s with mem := s.mem.writeBytes a bytes } := by
  intro p hp
  cases p with
  | byte b =>
    have houtside : ¬ (a ≤ b ∧ b < a + bytes.length) := fun ⟨hle, hlt⟩ =>
      hp (List.mem_map.2 ⟨b - a, List.mem_range.2 (by omega), by rw [Nat.add_sub_cancel' hle]⟩)
    exact Memory.read_writeBytes_outside _ _ _ (by omega)
  | _ => rfl

end Sys2Proof.Machine
end

namespace Sys2Proof.Machine

/-- Settles O47: one tick lowers each timer by 1 or leaves it at 0 (`countDown_toNat`), by induction on the ticks. -/
theorem ticksCountDown : Obligations.TicksCountDown := by
  intro s t n h
  induction n generalizing s with
  | zero =>
    obtain rfl := Host.Outcome.next.inj h
    exact ⟨rfl, rfl, fun p _ => p.same_refl s⟩
  | succ n ih =>
    obtain ⟨u, hu, hrest⟩ := runEvents_cons h
    obtain rfl := Host.Outcome.next.inj hu
    obtain ⟨hDT, hST, hframe⟩ := ih _ hrest
    have htickDT : s.tickTimers.DT.toNat = s.DT.toNat - 1 := countDown_toNat s.DT
    have htickST : s.tickTimers.ST.toNat = s.ST.toNat - 1 := countDown_toNat s.ST
    exact ⟨by omega, by omega, (s.tickTimers_unchangedBut.trans hframe).mono (by simp)⟩

/-- Settles O48: the host never counts a timer up (`applyEvent_timers_le`), and a step writes a timer only where the
instruction at PC may (`step_same_or_mayWrite`), which is its load (`timer_mem_mayWrite`). -/
theorem timersCountUpOnlyByTheirLoads : Obligations.TimersCountUpOnlyByTheirLoads := by
  intro e s t he
  by_cases hstep : e = .step
  · subst e
    refine ⟨fun hup => ⟨rfl, ?DT⟩, fun hup => ⟨rfl, ?ST⟩⟩
    case DT =>
      obtain hsame | ⟨i, hi, hmem, hexec⟩ := step_same_or_mayWrite (p := .DT) he nofun
      · exact absurd (congrArg BitVec.toNat hsame) hup.ne'
      · obtain ⟨x, rfl⟩ := (timer_mem_mayWrite s i).1 hmem
        exact ⟨x, hi, Host.Outcome.next.inj hexec ▸ rfl⟩
    case ST =>
      obtain hsame | ⟨i, hi, hmem, hexec⟩ := step_same_or_mayWrite (p := .ST) he nofun
      · exact absurd (congrArg BitVec.toNat hsame) hup.ne'
      · obtain ⟨x, rfl⟩ := (timer_mem_mayWrite s i).2 hmem
        exact ⟨x, hi, Host.Outcome.next.inj hexec ▸ rfl⟩
  · obtain ⟨hDT, hST⟩ := applyEvent_timers_le hstep he
    exact ⟨fun hup => absurd hup hDT.not_gt, fun hup => absurd hup hST.not_gt⟩

/-- Settles O46: a release is the write of the keypad that clears the key's bit, an acknowledge the write of redraw. -/
theorem releaseAndAcknowledge : Obligations.ReleaseAndAcknowledge := fun s k =>
  ⟨s.keyHeld_releaseKey k, s.withKeypad_unchangedBut _, State.releaseKey_of_up, rfl, s.ackRedraw_unchangedBut⟩

/-- Settles O49: a ROM that fits is written from 0x200 up, and one that does not is rejected. -/
theorem loadWritesTheRom : Obligations.LoadWritesTheRom := by
  refine fun s bytes => ⟨State.load_of_tooLong, fun hlen => ?_⟩
  rw [State.load_of_fits hlen]
  exact ⟨rfl, s.mem.read_writeBytes_at romBase bytes, s.writeBytesAt_unchangedBut romBase bytes⟩

end Sys2Proof.Machine

namespace Sys2Proof.Machine

/-- Settles O17: memory at creation lists no address, so it has the canonical form and every address, the reserved ones too,
reads as created; the stack is empty and the latch clear, so the clauses on frames and on the record speak of nothing. -/
theorem resetMeetsInvariant : Obligations.ResetMeetsInvariant where
  memWf := Memory.wf_nil
  reservedIntact := fun a _ => State.reset_read a
  frames := fun j hj => absurd hj j.val.not_lt_zero
  waitOrHalt := .inl rfl
  recordFits := nofun

end Sys2Proof.Machine

namespace Sys2Proof.Machine

/-- Settles O9: every instruction answers a next state (`exec_frame`), and a step idles, takes a fault of the fetch or of the
decoder into the latch, or is the instruction at PC (`step_cases`). -/
theorem everyStepAnswersNext : Obligations.EveryStepAnswersNext := by
  have hexec : ∀ (i : Instr) (s : State), ∃ t, exec i s = .next t := fun i s =>
    (exec_frame i s).imp fun _ => And.left
  refine ⟨hexec, fun s => ?_⟩
  obtain ⟨-, hidle⟩ | ⟨-, c, -, hfetch⟩ | ⟨-, -, -, hdecode⟩ | ⟨-, -, i, -, hrun⟩ := step_cases s
  · exact ⟨s, hidle⟩
  · exact ⟨_, hfetch⟩
  · exact ⟨_, hdecode⟩
  · exact hrun ▸ hexec i s

end Sys2Proof.Machine
